-- ==== Sys2Proof/Word.lean ====
section
/-! DEFINITION. The widths of the machine: bytes, 16-bit words and register numbers (00_scope.md R6, R10). -/

namespace Sys2Proof

/-- An 8-bit value: a general register, a timer, a byte of memory (R6). -/
abbrev Byte := BitVec 8

/-- A 16-bit value: I, PC, SP, a return address, an opcode (R6). -/
abbrev Word := BitVec 16

/-- The number of a general register, 0 to 15 (R10, R20). -/
abbrev Reg := Fin 16

/-- The framebuffer: 2048 pixels of one bit, a flat sequence FB[p] (R6, R29), held as 32 words of 64 pixels; pixel p is
bit p mod 64 of word p div 64, so word r is row r of the screen. -/
abbrev Framebuffer := Vector (BitVec 64) 32

end Sys2Proof
end

