-- ==== Sys2Proof/Config.lean ====
section
/-! DEFINITION. What an implementation fixes (the parameters of 00_scope.md R7) and the free value of RND.
The default values stand in Machine/Params.lean. -/

namespace Sys2Proof

/-- How many low bits select the routine in family 0 or E: 4 or 8 (R7, R84, D2). -/
inductive KeyWidth where
  | four
  | eight
  deriving DecidableEq, Repr

/-- Which write wins when an ALU instruction's destination is VF (R7, R150, D6). -/
inductive FlagOrder where
  | flagThenDest
  | destThenFlag
  deriving DecidableEq, Repr

/-- Where sprite pixels past the right or bottom edge land (R7, R204, D16). -/
inductive DrawEdge where
  | flat
  | clip
  | wrap
  deriving DecidableEq, Repr

/-- The parameters of R7: fixed for one machine, never changed by a step.
DESIGN CHOICE (log entry 1): they are a field of State, so that a statement about every state is a statement
about every value of them. Safe. -/
structure Config where
  /-- P_SUBKEY0. -/
  subkey0 : KeyWidth
  /-- P_SUBKEYE. -/
  subkeyE : KeyWidth
  /-- P_FLAG_ORDER. -/
  flagOrder : FlagOrder
  /-- P_DRAW_EDGE. -/
  drawEdge : DrawEdge
  /-- P_FONT_BASE. -/
  fontBase : Word
  /-- P_FONT_DATA. -/
  fontData : Vector Byte 80
  deriving DecidableEq, Repr

/-- The legal values of R7 and R31: the font lies below the program-load base, P_FONT_BASE at most 0x1B0. -/
abbrev Config.legal (c : Config) : Prop := c.fontBase.toNat + 80 ≤ 0x200

/-- `RandomByte()` (R7, R32, R163, D21): the k-th draw of a run, any byte. FREE VALUE: no body, so nothing can be
proved about a draw (log entry 2). -/
opaque Config.randomByte : Nat → Byte

end Sys2Proof
end

