-- ==== Sys2Proof/Machine/Params.lean ====
section
/-! DEFINITION. The default parameters of 00_scope.md R7 and 10_state.md R31, and the contents of memory at reset. -/

namespace Sys2Proof.Machine

/-- The default P_FONT_DATA: the sixteen glyphs of five bytes of R31. -/
def defaultFont : Vector Byte 80 :=
  #v[0xF0, 0x90, 0x90, 0x90, 0xF0,  0x20, 0x60, 0x20, 0x20, 0x70,
     0xF0, 0x10, 0xF0, 0x80, 0xF0,  0xF0, 0x10, 0xF0, 0x10, 0xF0,
     0x90, 0x90, 0xF0, 0x10, 0x10,  0xF0, 0x80, 0xF0, 0x10, 0xF0,
     0xF0, 0x80, 0xF0, 0x90, 0xF0,  0xF0, 0x10, 0x20, 0x40, 0x40,
     0xF0, 0x90, 0xF0, 0x90, 0xF0,  0xF0, 0x90, 0xF0, 0x10, 0xF0,
     0xF0, 0x90, 0xF0, 0x90, 0x90,  0xE0, 0x90, 0xE0, 0x90, 0xE0,
     0xF0, 0x80, 0x80, 0x80, 0xF0,  0xE0, 0x90, 0x90, 0x90, 0xE0,
     0xF0, 0x80, 0xF0, 0x80, 0xF0,  0xF0, 0x80, 0xF0, 0x80, 0x80]

/-- The defaults of R7. -/
def defaultConfig : Config where
  subkey0 := .four
  subkeyE := .four
  flagOrder := .flagThenDest
  drawEdge := .flat
  fontBase := 0x050
  fontData := defaultFont

/-- The byte that memory holds at address `a` after reset: P_FONT_DATA at P_FONT_BASE, 0 elsewhere (R31, R36).
It is also what an address that memory does not list reads as. -/
def resetByte (c : Config) (a : Nat) : Byte :=
  if c.fontBase.toNat ≤ a then c.fontData.toList.getD (a - c.fontBase.toNat) 0 else 0

end Sys2Proof.Machine
end

