-- ==== Sys2Proof/Syntax.lean ====
section
/-! DEFINITION. The instructions: one constructor per row of spec/opcode_table.json, in the table's order
(30_encoding.md R89, R90). Operands are the row's fields (R82); bits that a row ignores are not operands (R87). -/

namespace Sys2Proof

/-- One instruction as decoded. `x` and `y` are register numbers, `kk` a byte, `n` a nibble, `nnn` a 12-bit
address. -/
inductive Instr where
  /-- 00E0 CLS. -/
  | cls
  /-- 00EE RET. -/
  | ret
  /-- 0nnn SYS nnn: a word of family 0 that is neither CLS nor RET (R130). -/
  | sys (nnn : BitVec 12)
  /-- 1nnn JP nnn. -/
  | jp (nnn : BitVec 12)
  /-- 2nnn CALL nnn. -/
  | call (nnn : BitVec 12)
  /-- 3xkk SE Vx, kk. -/
  | seImm (x : Reg) (kk : Byte)
  /-- 4xkk SNE Vx, kk. -/
  | sneImm (x : Reg) (kk : Byte)
  /-- 5xy0 SE Vx, Vy; the low nibble is ignored (R87). -/
  | seReg (x y : Reg)
  /-- 6xkk LD Vx, kk. -/
  | ldImm (x : Reg) (kk : Byte)
  /-- 7xkk ADD Vx, kk. -/
  | addImm (x : Reg) (kk : Byte)
  /-- 8xy0 LD Vx, Vy. -/
  | ldReg (x y : Reg)
  /-- 8xy1 OR Vx, Vy. -/
  | orReg (x y : Reg)
  /-- 8xy2 AND Vx, Vy. -/
  | andReg (x y : Reg)
  /-- 8xy3 XOR Vx, Vy. -/
  | xorReg (x y : Reg)
  /-- 8xy4 ADD Vx, Vy. -/
  | addReg (x y : Reg)
  /-- 8xy5 SUB Vx, Vy. -/
  | subReg (x y : Reg)
  /-- 8xy6 SHR Vx, Vy. -/
  | shr (x y : Reg)
  /-- 8xy7 SUBN Vx, Vy. -/
  | subn (x y : Reg)
  /-- 8xyE SHL Vx, Vy. -/
  | shl (x y : Reg)
  /-- NOP.8: the residual of family 8 (R86). -/
  | nop8
  /-- 9xy0 SNE Vx, Vy; the low nibble is ignored (R87). -/
  | sneReg (x y : Reg)
  /-- Annn LD I, nnn. -/
  | ldI (nnn : BitVec 12)
  /-- Bnnn JP V0, nnn. -/
  | jpV0 (nnn : BitVec 12)
  /-- Cxkk RND Vx, kk. -/
  | rnd (x : Reg) (kk : Byte)
  /-- Dxyn DRW Vx, Vy, n. -/
  | drw (x y : Reg) (n : BitVec 4)
  /-- Ex9E SKP Vx. -/
  | skp (x : Reg)
  /-- ExA1 SKNP Vx. -/
  | sknp (x : Reg)
  /-- NOP.E: the residual of family E (R86). -/
  | nopE
  /-- Fx07 LD Vx, DT. -/
  | ldVxDt (x : Reg)
  /-- Fx0A LD Vx, K. -/
  | ldVxK (x : Reg)
  /-- Fx15 LD DT, Vx. -/
  | ldDtVx (x : Reg)
  /-- Fx18 LD ST, Vx. -/
  | ldStVx (x : Reg)
  /-- Fx1E ADD I, Vx. -/
  | addI (x : Reg)
  /-- Fx29 LD F, Vx. -/
  | ldF (x : Reg)
  /-- Fx33 LD B, Vx. -/
  | ldB (x : Reg)
  /-- Fx55 LD [I], Vx. -/
  | ldMemVx (x : Reg)
  /-- Fx65 LD Vx, [I]. -/
  | ldVxMem (x : Reg)
  /-- NOP.F: the residual of family F (R86). -/
  | nopF
  deriving DecidableEq, Repr

end Sys2Proof
end

