-- ==== Sys2Proof/WellFormed.lean ====
section
/-! DEFINITION. Which instructions have an encoding. Every operand fits its field by its type; the one further check
is that SYS nnn is a word of family 0 whose key selects neither CLS nor RET (30_encoding.md R84, R85; 41_control.md
R130). -/

namespace Sys2Proof

/-- Does the family-0 word 0nnn select CLS or RET under the key width P_SUBKEY0 (R84 c, R85)? -/
def mappedInFamily0 (w : KeyWidth) (nnn : BitVec 12) : Bool :=
  match w with
  | .four => nnn.toNat % 16 == 0x0 || nnn.toNat % 16 == 0xE
  | .eight => nnn.toNat % 256 == 0xE0 || nnn.toNat % 256 == 0xEE

/-- `i` has an encoding under the parameters `c`. -/
def Instr.wellFormed (c : Config) (i : Instr) : Bool :=
  match i with
  | .sys nnn => !mappedInFamily0 c.subkey0 nnn
  | .cls | .ret | .jp _ | .call _ | .seImm _ _ | .sneImm _ _ | .seReg _ _ | .ldImm _ _ | .addImm _ _
  | .ldReg _ _ | .orReg _ _ | .andReg _ _ | .xorReg _ _ | .addReg _ _ | .subReg _ _ | .shr _ _ | .subn _ _
  | .shl _ _ | .nop8 | .sneReg _ _ | .ldI _ | .jpV0 _ | .rnd _ _ | .drw _ _ _ | .skp _ | .sknp _ | .nopE
  | .ldVxDt _ | .ldVxK _ | .ldDtVx _ | .ldStVx _ | .addI _ | .ldF _ | .ldB _ | .ldMemVx _ | .ldVxMem _
  | .nopF => true

end Sys2Proof
end

