-- ==== Sys2Proof/Decode.lean ====
section
/-! DEFINITION. From words to instructions and back (30_encoding.md). `decode` is the algorithm of R85; the encoder
writes the canonical words of R89; `decodeByTable` reads spec/opcode_table.json as R90 says. -/

namespace Sys2Proof

/-! ## Fields (R81, R82) -/

/-- `op[15:12]`, the family. -/
def familyOf (op : Word) : BitVec 4 := op.extractLsb' 12 4

/-- `x = op[11:8]`. -/
def xOf (op : Word) : Reg := (op.extractLsb' 8 4).toFin

/-- `y = op[7:4]`. -/
def yOf (op : Word) : Reg := (op.extractLsb' 4 4).toFin

/-- `n = op[3:0]`. -/
def nOf (op : Word) : BitVec 4 := op.extractLsb' 0 4

/-- `kk = op[7:0]`. -/
def kkOf (op : Word) : Byte := op.extractLsb' 0 8

/-- `nnn = op[11:0]`. -/
def nnnOf (op : Word) : BitVec 12 := op.extractLsb' 0 12

/-! ## Decoding (R84 to R87) -/

/-- Is the key of `op`, of width `w`, the one of the word whose low byte is `key` (R84 c, d)? -/
def keyIs (w : KeyWidth) (op : Word) (key : Byte) : Bool :=
  match w with
  | .four => nOf op == key.extractLsb' 0 4
  | .eight => kkOf op == key

/-- Family 0: CLS, RET, else SYS (R85). -/
def decodeFamily0 (c : Config) (op : Word) : Instr :=
  if keyIs c.subkey0 op 0xE0 then .cls
  else if keyIs c.subkey0 op 0xEE then .ret
  else .sys (nnnOf op)

/-- Family 8: the key is `op[3:0]` (R84 a, R85). -/
def decodeFamily8 (op : Word) : Instr :=
  match nOf op with
  | 0x0#4 => .ldReg (xOf op) (yOf op)
  | 0x1#4 => .orReg (xOf op) (yOf op)
  | 0x2#4 => .andReg (xOf op) (yOf op)
  | 0x3#4 => .xorReg (xOf op) (yOf op)
  | 0x4#4 => .addReg (xOf op) (yOf op)
  | 0x5#4 => .subReg (xOf op) (yOf op)
  | 0x6#4 => .shr (xOf op) (yOf op)
  | 0x7#4 => .subn (xOf op) (yOf op)
  | 0xE#4 => .shl (xOf op) (yOf op)
  | _ => .nop8

/-- Family E: SKP, SKNP, else a no-op (R85). -/
def decodeFamilyE (c : Config) (op : Word) : Instr :=
  if keyIs c.subkeyE op 0x9E then .skp (xOf op)
  else if keyIs c.subkeyE op 0xA1 then .sknp (xOf op)
  else .nopE

/-- Family F: the key is `op[7:0]` (R84 b, R85). -/
def decodeFamilyF (op : Word) : Instr :=
  match kkOf op with
  | 0x07#8 => .ldVxDt (xOf op)
  | 0x0A#8 => .ldVxK (xOf op)
  | 0x15#8 => .ldDtVx (xOf op)
  | 0x18#8 => .ldStVx (xOf op)
  | 0x1E#8 => .addI (xOf op)
  | 0x29#8 => .ldF (xOf op)
  | 0x33#8 => .ldB (xOf op)
  | 0x55#8 => .ldMemVx (xOf op)
  | 0x65#8 => .ldVxMem (xOf op)
  | _ => .nopF

/-- `decode(op)` of R85: total, every word has exactly one routine. It reads only the word and the parameters
P_SUBKEY0 and P_SUBKEYE (R113). -/
def decode (c : Config) (op : Word) : Instr :=
  match familyOf op with
  | 0x0#4 => decodeFamily0 c op
  | 0x1#4 => .jp (nnnOf op)
  | 0x2#4 => .call (nnnOf op)
  | 0x3#4 => .seImm (xOf op) (kkOf op)
  | 0x4#4 => .sneImm (xOf op) (kkOf op)
  | 0x5#4 => .seReg (xOf op) (yOf op)
  | 0x6#4 => .ldImm (xOf op) (kkOf op)
  | 0x7#4 => .addImm (xOf op) (kkOf op)
  | 0x8#4 => decodeFamily8 op
  | 0x9#4 => .sneReg (xOf op) (yOf op)
  | 0xA#4 => .ldI (nnnOf op)
  | 0xB#4 => .jpV0 (nnnOf op)
  | 0xC#4 => .rnd (xOf op) (kkOf op)
  | 0xD#4 => .drw (xOf op) (yOf op) (nOf op)
  | 0xE#4 => decodeFamilyE c op
  | _ => decodeFamilyF op

/-- An instruction word from its two bytes, the byte at the lower address first: big-endian (R52, R80). -/
def composeWord (hi lo : Byte) : Word := hi ++ lo

/-- Why bytes are no instruction. No word is refused (R88), so only a missing byte is a reason. -/
inductive DecodeError where
  /-- Fewer than the two bytes of an instruction (R80). -/
  | truncated
  deriving DecidableEq, Repr

/-- Decode the instruction at the head of some bytes, with the bytes left after it (R80). -/
def decodeBytes (c : Config) (bytes : List Byte) : Except DecodeError (Instr × List Byte) :=
  match bytes with
  | hi :: lo :: rest => .ok (decode c (composeWord hi lo), rest)
  | [_] => .error .truncated
  | [] => .error .truncated

/-! ## Encoding (R81, R89, R91) -/

/-- Format NNN. -/
def wordNnn (family : BitVec 4) (nnn : BitVec 12) : Word := family ++ nnn

/-- Formats XKK and XS: a register and a low byte. -/
def wordXkk (family : BitVec 4) (x : Reg) (kk : Byte) : Word := family ++ BitVec.ofFin (w := 4) x ++ kk

/-- Format XYN. -/
def wordXyn (family : BitVec 4) (x y : Reg) (n : BitVec 4) : Word :=
  family ++ BitVec.ofFin (w := 4) x ++ BitVec.ofFin (w := 4) y ++ n

/-- The canonical word of an instruction (R89); ignored bits are 0 (R91). The three no-op rows have no canonical word
in the spec; the word chosen has an unmapped key under both key widths (R86). -/
def encode : Instr → Word
  | .cls => 0x00E0
  | .ret => 0x00EE
  | .sys nnn => wordNnn 0x0 nnn
  | .jp nnn => wordNnn 0x1 nnn
  | .call nnn => wordNnn 0x2 nnn
  | .seImm x kk => wordXkk 0x3 x kk
  | .sneImm x kk => wordXkk 0x4 x kk
  | .seReg x y => wordXyn 0x5 x y 0x0
  | .ldImm x kk => wordXkk 0x6 x kk
  | .addImm x kk => wordXkk 0x7 x kk
  | .ldReg x y => wordXyn 0x8 x y 0x0
  | .orReg x y => wordXyn 0x8 x y 0x1
  | .andReg x y => wordXyn 0x8 x y 0x2
  | .xorReg x y => wordXyn 0x8 x y 0x3
  | .addReg x y => wordXyn 0x8 x y 0x4
  | .subReg x y => wordXyn 0x8 x y 0x5
  | .shr x y => wordXyn 0x8 x y 0x6
  | .subn x y => wordXyn 0x8 x y 0x7
  | .shl x y => wordXyn 0x8 x y 0xE
  | .nop8 => 0x8008
  | .sneReg x y => wordXyn 0x9 x y 0x0
  | .ldI nnn => wordNnn 0xA nnn
  | .jpV0 nnn => wordNnn 0xB nnn
  | .rnd x kk => wordXkk 0xC x kk
  | .drw x y n => wordXyn 0xD x y n
  | .skp x => wordXkk 0xE x 0x9E
  | .sknp x => wordXkk 0xE x 0xA1
  | .nopE => 0xE000
  | .ldVxDt x => wordXkk 0xF x 0x07
  | .ldVxK x => wordXkk 0xF x 0x0A
  | .ldDtVx x => wordXkk 0xF x 0x15
  | .ldStVx x => wordXkk 0xF x 0x18
  | .addI x => wordXkk 0xF x 0x1E
  | .ldF x => wordXkk 0xF x 0x29
  | .ldB x => wordXkk 0xF x 0x33
  | .ldMemVx x => wordXkk 0xF x 0x55
  | .ldVxMem x => wordXkk 0xF x 0x65
  | .nopF => 0xF000

/-- The two bytes of a word as memory holds them, high byte first (R52). -/
def wordBytes (op : Word) : List Byte := [op.extractLsb' 8 8, op.extractLsb' 0 8]

/-- The bytes of an instruction in memory. -/
def encodeBytes (i : Instr) : List Byte := wordBytes (encode i)

/-! ## The opcode table (R90) -/

/-- One row of spec/opcode_table.json: a word matches when `op & mask = match`. -/
structure TableRow where
  mask : Word
  matchBits : Word
  build : Word → Instr

/-- The `mask` column for a row that depends on a key width (R90: `mask` and `mask_key8`). -/
def keyMask : KeyWidth → Word
  | .four => 0xF00F
  | .eight => 0xF0FF

/-- The `match` column for such a row, from its key-8 word (R90: `match` and `match_key8`). -/
def keyMatch (w : KeyWidth) (word : Word) : Word := word &&& keyMask w

/-- Families 0 to 7 of the table. -/
def tableRows0to7 (c : Config) : List TableRow :=
  [ ⟨keyMask c.subkey0, keyMatch c.subkey0 0x00E0, fun _ => .cls⟩,
    ⟨keyMask c.subkey0, keyMatch c.subkey0 0x00EE, fun _ => .ret⟩,
    ⟨0xF000, 0x0000, fun op => .sys (nnnOf op)⟩,
    ⟨0xF000, 0x1000, fun op => .jp (nnnOf op)⟩,
    ⟨0xF000, 0x2000, fun op => .call (nnnOf op)⟩,
    ⟨0xF000, 0x3000, fun op => .seImm (xOf op) (kkOf op)⟩,
    ⟨0xF000, 0x4000, fun op => .sneImm (xOf op) (kkOf op)⟩,
    ⟨0xF000, 0x5000, fun op => .seReg (xOf op) (yOf op)⟩,
    ⟨0xF000, 0x6000, fun op => .ldImm (xOf op) (kkOf op)⟩,
    ⟨0xF000, 0x7000, fun op => .addImm (xOf op) (kkOf op)⟩ ]

/-- Family 8 of the table. -/
def tableRows8 : List TableRow :=
  [ ⟨0xF00F, 0x8000, fun op => .ldReg (xOf op) (yOf op)⟩,
    ⟨0xF00F, 0x8001, fun op => .orReg (xOf op) (yOf op)⟩,
    ⟨0xF00F, 0x8002, fun op => .andReg (xOf op) (yOf op)⟩,
    ⟨0xF00F, 0x8003, fun op => .xorReg (xOf op) (yOf op)⟩,
    ⟨0xF00F, 0x8004, fun op => .addReg (xOf op) (yOf op)⟩,
    ⟨0xF00F, 0x8005, fun op => .subReg (xOf op) (yOf op)⟩,
    ⟨0xF00F, 0x8006, fun op => .shr (xOf op) (yOf op)⟩,
    ⟨0xF00F, 0x8007, fun op => .subn (xOf op) (yOf op)⟩,
    ⟨0xF00F, 0x800E, fun op => .shl (xOf op) (yOf op)⟩,
    ⟨0xF000, 0x8000, fun _ => .nop8⟩ ]

/-- Families 9 to E of the table. -/
def tableRows9toE (c : Config) : List TableRow :=
  [ ⟨0xF000, 0x9000, fun op => .sneReg (xOf op) (yOf op)⟩,
    ⟨0xF000, 0xA000, fun op => .ldI (nnnOf op)⟩,
    ⟨0xF000, 0xB000, fun op => .jpV0 (nnnOf op)⟩,
    ⟨0xF000, 0xC000, fun op => .rnd (xOf op) (kkOf op)⟩,
    ⟨0xF000, 0xD000, fun op => .drw (xOf op) (yOf op) (nOf op)⟩,
    ⟨keyMask c.subkeyE, keyMatch c.subkeyE 0xE09E, fun op => .skp (xOf op)⟩,
    ⟨keyMask c.subkeyE, keyMatch c.subkeyE 0xE0A1, fun op => .sknp (xOf op)⟩,
    ⟨0xF000, 0xE000, fun _ => .nopE⟩ ]

/-- Family F of the table. -/
def tableRowsF : List TableRow :=
  [ ⟨0xF0FF, 0xF007, fun op => .ldVxDt (xOf op)⟩,
    ⟨0xF0FF, 0xF00A, fun op => .ldVxK (xOf op)⟩,
    ⟨0xF0FF, 0xF015, fun op => .ldDtVx (xOf op)⟩,
    ⟨0xF0FF, 0xF018, fun op => .ldStVx (xOf op)⟩,
    ⟨0xF0FF, 0xF01E, fun op => .addI (xOf op)⟩,
    ⟨0xF0FF, 0xF029, fun op => .ldF (xOf op)⟩,
    ⟨0xF0FF, 0xF033, fun op => .ldB (xOf op)⟩,
    ⟨0xF0FF, 0xF055, fun op => .ldMemVx (xOf op)⟩,
    ⟨0xF0FF, 0xF065, fun op => .ldVxMem (xOf op)⟩,
    ⟨0xF000, 0xF000, fun _ => .nopF⟩ ]

/-- The rows of spec/opcode_table.json in list order. -/
def tableRows (c : Config) : List TableRow :=
  tableRows0to7 c ++ (tableRows8 ++ (tableRows9toE c ++ tableRowsF))

/-- The first matching row decides (R90). -/
def firstMatch : List TableRow → Word → Option Instr
  | [], _ => none
  | r :: rs, op => if op &&& r.mask = r.matchBits then some (r.build op) else firstMatch rs op

/-- Decoding by the opcode table. -/
def decodeByTable (c : Config) (op : Word) : Option Instr := firstMatch (tableRows c) op

/-! ## The host's question -/

/-- The instruction the decoder reads, under the default parameters, from the bytes of an instruction whose bits are
`w` (every row has one 16-bit word; bits at `nbits` and above are 0). -/
def decodeTableWord (nbits w : Nat) : Option Instr :=
  match decodeBytes Machine.defaultConfig (wordBytes (BitVec.ofNat 16 (w % 2 ^ nbits))) with
  | .ok (i, _) => some i
  | .error _ => none

end Sys2Proof
end

