-- ==== Sys2Proof/Machine/State.lean ====
section
/-! DEFINITION. The machine's state as plain data (10_state.md), the reasons a Cycle can fault
(60_exceptions.md R241) and the state after reset (R36, R270). -/

namespace Sys2Proof.Machine

/-- The faults of R241. A meaning answers one, and the Cycle then discards the instruction's writes and records it
(R242, `recordFault`): a step never ends in a fault. All are safe: the reference goes on with corrupt state where
the spec stops (D10, D11, D12, D15, D16, D22). The argument is R241's "info recorded". -/
inductive Fault where
  /-- FETCH_OOB: raised by the Cycle's fetch when pc0 + 1 > 0xFFF (R111). Safe. -/
  | fetchOob (pc0 : Word)
  /-- STACK_OVERFLOW: raised by CALL when SP = 16 (R132). Safe. -/
  | stackOverflow (sp : Word)
  /-- STACK_UNDERFLOW: raised by RET when SP = 0 (R131). Safe. -/
  | stackUnderflow (sp : Word)
  /-- MEM_OOB: raised by DRW, LD B, LD [I] and LD Vx,[I] on a data address above 0xFFF (R55). Safe. -/
  | memOob (addr : Nat)
  /-- KEY_INDEX: raised by SKP and SKNP when V[x] > 15 (R220, R221). Safe. -/
  | keyIndex (vx : Byte)
  /-- DRAW_OOB: raised by DRW under P_DRAW_EDGE = flat on a pixel index above 2047 (R204). Safe. -/
  | drawOob (index : Nat)
  deriving DecidableEq, Repr

/-- The fault code of R241. -/
def Fault.code : Fault → Nat
  | .fetchOob _ => 1
  | .stackOverflow _ => 2
  | .stackUnderflow _ => 3
  | .memOob _ => 4
  | .keyIndex _ => 5
  | .drawOob _ => 6

/-- The value R241 records with the code. -/
def Fault.info : Fault → Nat
  | .fetchOob pc0 => pc0.toNat
  | .stackOverflow sp => sp.toNat
  | .stackUnderflow sp => sp.toNat
  | .memOob addr => addr
  | .keyIndex vx => vx.toNat
  | .drawOob index => index

/-- The reasons a meaning can be refused. -/
inductive Refusal where
  /-- Raised by an arm of exec whose instruction has no meaning yet. Safe. -/
  | notModelled (mnemonic : String)
  /-- Raised by CALL and RET when SP is above 16, which R25 says never happens: the spec gives them no effect there
  (log entry 4). Safe. -/
  | stackPointerIllegal (sp : Word)
  deriving DecidableEq, Repr

/-- The record of R34, `some(code, info, pc0, op)`: `reason` carries the code and the info; `op` is absent for
FETCH_OOB. -/
structure FaultRecord where
  reason : Fault
  pc0 : Word
  op : Option Word
  deriving DecidableEq, Repr

/-- Everything the spec gives the machine between Cycles (10_state.md), and the model's own `config` and `draws`. -/
structure State where
  /-- V0 to VF (R20). -/
  v : Vector Byte 16
  /-- The index register I (R23). -/
  i : Word
  /-- The program counter (R24). -/
  pc : Word
  /-- The stack pointer, the depth of the call stack (R25). -/
  sp : Word
  /-- The call stack (R26). -/
  stack : Vector Word 16
  /-- The delay timer (R27). -/
  dt : Byte
  /-- The sound timer (R28). -/
  st : Byte
  /-- The framebuffer FB[0..2047]; the pixel at column c and row r is FB[r*64 + c] (R29). -/
  fb : Framebuffer
  /-- The keypad snapshot: bit k is Key[k], 1 for pressed (R30, R253). -/
  keys : BitVec 16
  /-- Memory, the bytes that differ from their reset contents, in rising order of address (R50). -/
  mem : List Host.Cell
  /-- The fault record (R34). -/
  fault : Option FaultRecord
  /-- The model's own: how many random bytes have been drawn (log entry 2). -/
  draws : Nat
  /-- The model's own: the parameters of R7, which no step changes (log entry 1). -/
  config : Config
  deriving DecidableEq, Repr

/-- The state after reset of a machine with the parameters `c` (R36, R270). The stack entries, which the spec leaves
unspecified (D27), are 0: DESIGN CHOICE, log entry 3, unsafe. -/
def State.resetWith (c : Config) : State where
  v := Vector.replicate 16 0
  i := 0
  pc := 0x200
  sp := 0
  stack := Vector.replicate 16 0
  dt := 0
  st := 0
  fb := Vector.replicate 32 0
  keys := 0
  mem := []
  fault := none
  draws := 0
  config := c

/-- The state after reset under the default parameters (R7, R36). -/
def State.reset : State := State.resetWith defaultConfig

end Sys2Proof.Machine
end

