-- ==== Sys2Proof/Machine/Ops.lean ====
section
/-! DEFINITION. The named operations over registers and memory, the primitives of 00_scope.md R11, and the fault
outcome of 60_exceptions.md R242. -/

namespace Sys2Proof.Machine

/-! ## Registers (10_state.md R20 to R28) -/

/-- `V[x]`. -/
def State.reg (s : State) (x : Reg) : Byte := s.v.get x

/-- `V[x] <- b`. -/
def State.setReg (s : State) (x : Reg) (b : Byte) : State := { s with v := s.v.set x b }

/-- `I <- w`. -/
def State.setI (s : State) (w : Word) : State := { s with i := w }

/-- `PC <- w`. -/
def State.setPc (s : State) (w : Word) : State := { s with pc := w }

/-- `DT <- b`. -/
def State.setDt (s : State) (b : Byte) : State := { s with dt := b }

/-- `ST <- b`. -/
def State.setSt (s : State) (b : Byte) : State := { s with st := b }

/-- The framebuffer replaced. -/
def State.setFb (s : State) (f : Framebuffer) : State := { s with fb := f }

/-- `FB[p]`, for p from 0 to 2047 (R29). -/
def pixelOn (fb : Framebuffer) (p : Nat) : Bool :=
  if h : p / 64 < 32 then fb[p / 64].getLsbD (p % 64) else false

/-- `FB[p] <- FB[p] ^ 1`, for p from 0 to 2047 (R201). -/
def flipPixel (fb : Framebuffer) (p : Nat) : Framebuffer :=
  if h : p / 64 < 32 then fb.set (p / 64) (fb[p / 64] ^^^ BitVec.twoPow 64 (p % 64)) else fb

/-- Every pixel 0 (R200). -/
def clearFramebuffer : Framebuffer := Vector.replicate 32 0

/-- One more random byte has been drawn. -/
def State.countDraw (s : State) : State := { s with draws := s.draws + 1 }

/-- `Stack[SP] <- ret; SP <- SP + 1` (R132), for SP below 16. -/
def State.push (s : State) (h : s.sp.toNat < 16) (ret : Word) : State :=
  { s with stack := s.stack.set s.sp.toNat ret, sp := s.sp + 1 }

/-- `SP <- SP - 1; PC <- Stack[SP]` (R131), for SP from 1 to 16. The popped entry keeps its value (R26). -/
def State.pop (s : State) (h : (s.sp - 1).toNat < 16) : State :=
  { s with sp := s.sp - 1, pc := s.stack[(s.sp - 1).toNat] }

/-- `Key[k]` for k from 0 to 15. -/
def State.key (s : State) (k : Nat) : Bool := s.keys.getLsbD k

/-- `V[k], V[k+1], … <- bytes`, ascending; bytes past VF are dropped. -/
def State.setRegsFrom (k : Nat) : List Byte → State → State
  | [], s => s
  | b :: bs, s => State.setRegsFrom (k + 1) bs (if h : k < 16 then s.setReg ⟨k, h⟩ b else s)

/-- `V[0], …, V[x]`, in that order. -/
def State.regsUpTo (s : State) (x : Reg) : List Byte := s.v.toList.take (x.val + 1)

/-! ## Memory as a list of cells -/

/-- The byte listed at `a`. -/
def findCell : List Host.Cell → Nat → Option Byte
  | [], _ => none
  | (b, w) :: m, a => if b = a then some w else findCell m a

/-- The list with `v` at `a`, kept in rising order. -/
def putCell : List Host.Cell → Nat → Byte → List Host.Cell
  | [], a, v => [(a, v)]
  | (b, w) :: m, a, v =>
    if a < b then (a, v) :: (b, w) :: m
    else if a = b then (a, v) :: m
    else (b, w) :: putCell m a v

/-- The list with nothing at `a`. -/
def dropCell : List Host.Cell → Nat → List Host.Cell
  | [], _ => []
  | (b, w) :: m, a => if b = a then dropCell m a else (b, w) :: dropCell m a

/-- What memory `m` holds at `a`: the listed byte, else the reset contents. -/
def readCell (c : Config) (m : List Host.Cell) (a : Nat) : Byte := (findCell m a).getD (resetByte c a)

/-- Memory with `v` at `a`. Writing what an unlisted address reads as removes the entry. -/
def writeCell (c : Config) (m : List Host.Cell) (a : Nat) (v : Byte) : List Host.Cell :=
  if v = resetByte c a then dropCell m a else putCell m a v

/-- The canonical form: addresses of the 4096-byte space strictly rising, no entry equal to the reset contents. -/
abbrev Memory.wf (c : Config) (m : List Host.Cell) : Prop :=
  m.Pairwise (fun p q => p.1 < q.1) ∧ ∀ p ∈ m, p.1 ≤ 0xFFF ∧ p.2 ≠ resetByte c p.1

/-! ## Memory access (20_memory.md R50 to R55) -/

/-- The byte of memory at `a`. An address above 0xFFF is no memory and in a legal state reads as 0 here; every access of
an instruction goes through `memRead` and `memWrite`, which fault there (log entry 7). -/
def State.peek (s : State) (a : Nat) : Byte := readCell s.config s.mem a

/-- The state with byte `v` at the existing address `a`; above 0xFFF there is nothing to change. -/
def State.poke (s : State) (a : Nat) (v : Byte) : State :=
  if a ≤ 0xFFF then { s with mem := writeCell s.config s.mem a v } else s

/-- `MemRead(addr, 1)` (R11, R55). -/
def State.memRead (s : State) (addr : Nat) : Except Fault Byte :=
  if addr ≤ 0xFFF then .ok (s.peek addr) else .error (.memOob addr)

/-- `MemWrite(addr, 1, v)` (R11, R55). -/
def State.memWrite (s : State) (addr : Nat) (v : Byte) : Except Fault State :=
  if addr ≤ 0xFFF then .ok (s.poke addr v) else .error (.memOob addr)

/-- `MemWrite` of each byte in turn, from `addr` upward; the first address out of range faults. -/
def memWriteAll (addr : Nat) : List Byte → State → Except Fault State
  | [], s => .ok s
  | b :: bs, s =>
    match s.memWrite addr b with
    | .error f => .error f
    | .ok t => memWriteAll (addr + 1) bs t

/-- `MemRead` of `count` bytes in turn, from `addr` upward; the first address out of range faults. -/
def memReadAll (s : State) (addr : Nat) : Nat → Except Fault (List Byte)
  | 0 => .ok []
  | count + 1 =>
    match s.memRead addr with
    | .error f => .error f
    | .ok b =>
      match memReadAll s (addr + 1) count with
      | .error f => .error f
      | .ok bs => .ok (b :: bs)

/-- Bytes stored from `addr` upward, for the host's Load and for placing an instruction. -/
def pokeAll (addr : Nat) : List Byte → State → State
  | [], s => s
  | b :: bs, s => pokeAll (addr + 1) bs (s.poke addr b)

/-! ## Faults (60_exceptions.md R241, R242) -/

/-- `raise Fault(code, info)`: the instruction ends and none of its writes stays (R11, R242). -/
def raiseFault (f : Fault) : Host.Outcome State Fault Refusal := .fault f

/-- How a meaning ends whose memory accesses can fault. -/
def conclude : Except Fault State → Host.Outcome State Fault Refusal
  | .ok t => .next t
  | .error f => raiseFault f

/-- What a fault does (R242): the state at the start of the Cycle `s`, with the record set; `op` is the word fetched,
absent for FETCH_OOB (R34). There is no handler and no return (R244). -/
def recordFault (f : Fault) (op : Option Word) (s : State) : State :=
  { s with fault := some { reason := f, pc0 := s.pc, op := op } }

end Sys2Proof.Machine
end

