-- ==== Sys2Proof/Machine/Flags.lean ====
section
/-! DEFINITION. The ALU's results and flags (42_alu.md R150 to R164). Operands are read as naturals, computed
exactly and cut to 8 bits (R8). -/

namespace Sys2Proof.Machine

/-- A flag as the byte it is stored as. -/
def flagByte (b : Bool) : Byte := if b then 1 else 0

/-- `sum mod 2^8` (R158, R153). -/
def addResult (a b : Byte) : Byte := BitVec.ofNat 8 (a.toNat + b.toNat)

/-- `1 if sum > 255` (R158). -/
def carryFlag (a b : Byte) : Bool := decide (255 < a.toNat + b.toNat)

/-- `(minuend - subtrahend) mod 2^8` (R159, R161). -/
def subResult (minuend subtrahend : Byte) : Byte := BitVec.ofInt 8 ((minuend.toNat : Int) - subtrahend.toNat)

/-- `1 if minuend > subtrahend`, strictly (R159, R161, R164). -/
def noBorrowFlag (minuend subtrahend : Byte) : Bool := decide (subtrahend.toNat < minuend.toNat)

/-- `a >> 1` (R160). -/
def shrResult (a : Byte) : Byte := BitVec.ofNat 8 (a.toNat / 2)

/-- The bit shifted out on the right, `a & 1` (R160). -/
def shrFlag (a : Byte) : Bool := a.getLsbD 0

/-- `(a << 1) mod 2^8` (R162). -/
def shlResult (a : Byte) : Byte := BitVec.ofNat 8 (a.toNat * 2)

/-- The bit shifted out on the left, `(a >> 7) & 1` (R162). -/
def shlFlag (a : Byte) : Bool := a.getLsbD 7

/-- `WriteResultAndFlag(x, res, flag)` (R150): the two writes in the order P_FLAG_ORDER. -/
def writeResultAndFlag (x : Reg) (res : Byte) (flag : Bool) (s : State) : State :=
  match s.config.flagOrder with
  | .flagThenDest => (s.setReg 15 (flagByte flag)).setReg x res
  | .destThenFlag => (s.setReg x res).setReg 15 (flagByte flag)

end Sys2Proof.Machine
end

