-- ==== Sys2Proof/Machine/Operands.lean ====
section
/-! DEFINITION. The operand forms (30_encoding.md R82, R83; 43_index_memory.md): a register, an immediate, an address,
memory at I plus an offset; and the skip that the conditional instructions share. -/

namespace Sys2Proof.Machine

/-- `zext_16(nnn)` (R83). -/
def zextAddr (nnn : BitVec 12) : Word := nnn.setWidth 16

/-- A byte as a 16-bit value, zero-extended (R83). -/
def zextByte (b : Byte) : Word := b.setWidth 16

/-- The effective address `I + k`, an unbounded natural (20_memory.md R54). -/
def State.indexAddr (s : State) (k : Nat) : Nat := s.i.toNat + k

/-- `if cond then PC <- (PC + 2) mod 2^16` (R134 to R137, R220, R221). -/
def State.skipIf (cond : Bool) (s : State) : State := if cond then s.setPc (s.pc + 2) else s

/-- The font address of digit `d`: `(P_FONT_BASE + 5 * d) mod 2^16` (R182). -/
def glyphAddr (c : Config) (d : Byte) : Word := BitVec.ofNat 16 (c.fontBase.toNat + 5 * d.toNat)

/-- The three decimal digits of a byte, hundreds first (R183). -/
def bcdDigits (v : Byte) : List Byte :=
  [BitVec.ofNat 8 (v.toNat / 100), BitVec.ofNat 8 (v.toNat / 10 % 10), BitVec.ofNat 8 (v.toNat % 10)]

/-- The lowest pressed key, if any (R223: "scan key indices in ascending order"). -/
def firstKey (s : State) : Option Reg := (List.finRange 16).find? (fun k => s.key k.val)

end Sys2Proof.Machine
end

