-- ==== Sys2Proof/Machine/Control.lean ====
section
/-! DEFINITION. Control transfer and the no-ops (41_control.md R130 to R138; 30_encoding.md R86). PC is already the
address of the next instruction (40_cycle.md R112). -/

namespace Sys2Proof.Machine

/-- An instruction that does nothing in the execute step (R86). -/
def noEffect (s : State) : Host.Outcome State Fault Refusal := .next s

/-- SYS nnn (R130). -/
def execSys (_nnn : BitVec 12) (s : State) : Host.Outcome State Fault Refusal := noEffect s

/-- NOP.8 (R86). -/
def execNop8 (s : State) : Host.Outcome State Fault Refusal := noEffect s

/-- NOP.E (R86). -/
def execNopE (s : State) : Host.Outcome State Fault Refusal := noEffect s

/-- NOP.F (R86). -/
def execNopF (s : State) : Host.Outcome State Fault Refusal := noEffect s

/-- RET (R131). SP above 16 is no legal value (R25) and is refused (log entry 4). -/
def execRet (s : State) : Host.Outcome State Fault Refusal :=
  if s.sp = 0 then raiseFault (.stackUnderflow s.sp)
  else if h : (s.sp - 1).toNat < 16 then .next (s.pop h)
  else .refused (.stackPointerIllegal s.sp)

/-- CALL nnn (R132). SP above 16 is no legal value (R25) and is refused (log entry 4). -/
def execCall (nnn : BitVec 12) (s : State) : Host.Outcome State Fault Refusal :=
  if s.sp = 16 then raiseFault (.stackOverflow s.sp)
  else if h : s.sp.toNat < 16 then .next ((s.push h s.pc).setPc (zextAddr nnn))
  else .refused (.stackPointerIllegal s.sp)

/-- JP nnn (R133). -/
def execJp (nnn : BitVec 12) (s : State) : Host.Outcome State Fault Refusal := .next (s.setPc (zextAddr nnn))

/-- SE Vx, kk (R134). -/
def execSeImm (x : Reg) (kk : Byte) (s : State) : Host.Outcome State Fault Refusal :=
  .next (s.skipIf (s.reg x == kk))

/-- SNE Vx, kk (R135). -/
def execSneImm (x : Reg) (kk : Byte) (s : State) : Host.Outcome State Fault Refusal :=
  .next (s.skipIf (s.reg x != kk))

/-- SE Vx, Vy (R136). -/
def execSeReg (x y : Reg) (s : State) : Host.Outcome State Fault Refusal :=
  .next (s.skipIf (s.reg x == s.reg y))

/-- SNE Vx, Vy (R137). -/
def execSneReg (x y : Reg) (s : State) : Host.Outcome State Fault Refusal :=
  .next (s.skipIf (s.reg x != s.reg y))

/-- JP V0, nnn (R138): the sum is not cut to 12 bits. -/
def execJpV0 (nnn : BitVec 12) (s : State) : Host.Outcome State Fault Refusal :=
  .next (s.setPc (zextAddr nnn + zextByte (s.reg 0)))

end Sys2Proof.Machine
end

