-- ==== Sys2Proof/Machine/Display.lean ====
section
/-! DEFINITION. The framebuffer and the collision detector (44_display.md R200 to R207). -/

namespace Sys2Proof.Machine

/-- What `Place` answers (R204): a pixel, nothing, or an index past the end of the framebuffer. -/
inductive Placement where
  | pixel (p : Nat)
  | skip
  | outside (p : Nat)
  deriving DecidableEq, Repr

/-- `Place(c, r)` in the three modes of P_DRAW_EDGE (R204). -/
def place (edge : DrawEdge) (c r : Nat) : Placement :=
  match edge with
  | .flat => if r * 64 + c ≤ 2047 then .pixel (r * 64 + c) else .outside (r * 64 + c)
  | .clip => if 63 < c ∨ 31 < r then .skip else .pixel (r * 64 + c)
  | .wrap => .pixel ((r % 32) * 64 + c % 64)

/-- The framebuffer and the collision flag while a sprite is drawn. -/
structure Canvas where
  fb : Framebuffer
  hit : Bool
  deriving DecidableEq, Repr

/-- One on bit of a sprite at column `c`, row `r`: collide, then XOR (R201, R203). -/
def drawPixel (edge : DrawEdge) (c r : Nat) (k : Canvas) : Except Fault Canvas :=
  match place edge c r with
  | .pixel p => .ok ⟨flipPixel k.fb p, k.hit || pixelOn k.fb p⟩
  | .skip => .ok k
  | .outside p => .error (.drawOob p)

/-- Is column `col` of a sprite byte on? Bit 7 is column 0 (R205). -/
def spriteBit (b : Byte) (col : Nat) : Bool := b.getLsbD (7 - col)

/-- The columns `cols` of one sprite byte, in order (R201, R243: left to right). -/
def drawCols (edge : DrawEdge) (b : Byte) (x0 r : Nat) : List Nat → Canvas → Except Fault Canvas
  | [], k => .ok k
  | col :: cols, k =>
    if spriteBit b col then
      match drawPixel edge (x0 + col) r k with
      | .error f => .error f
      | .ok k' => drawCols edge b x0 r cols k'
    else drawCols edge b x0 r cols k

/-- The rows `rows` of the sprite at I: the row's byte is read before its pixels are placed (R201, R243). -/
def drawRows (s : State) (x0 y0 : Nat) : List Nat → Canvas → Except Fault Canvas
  | [], k => .ok k
  | row :: rows, k =>
    match s.memRead (s.indexAddr row) with
    | .error f => .error f
    | .ok b =>
      match drawCols s.config.drawEdge b x0 (y0 + row) (List.range 8) k with
      | .error f => .error f
      | .ok k' => drawRows s x0 y0 rows k'

/-- The sprite of height `n` drawn from the origin (V[x] mod 64, V[y] mod 32) (R201, R202), with the collision flag
starting at 0 (R203). -/
def drawSprite (x y : Reg) (n : BitVec 4) (s : State) : Except Fault Canvas :=
  drawRows s ((s.reg x).toNat % 64) ((s.reg y).toNat % 32) (List.range n.toNat) ⟨s.fb, false⟩

/-- CLS (R200). -/
def execCls (s : State) : Host.Outcome State Fault Refusal := .next (s.setFb clearFramebuffer)

/-- DRW Vx, Vy, n (R201). -/
def execDrw (x y : Reg) (n : BitVec 4) (s : State) : Host.Outcome State Fault Refusal :=
  match drawSprite x y n s with
  | .error f => raiseFault f
  | .ok k => .next ((s.setFb k.fb).setReg 15 (flagByte k.hit))

end Sys2Proof.Machine
end

