-- ==== Sys2Proof/Machine/IndexMemory.lean ====
section
/-! DEFINITION. The index register and memory instructions (43_index_memory.md R180 to R185). -/

namespace Sys2Proof.Machine

/-- LD I, nnn (R180). -/
def execLdI (nnn : BitVec 12) (s : State) : Host.Outcome State Fault Refusal := .next (s.setI (zextAddr nnn))

/-- ADD I, Vx (R181): mod 2^16, no flag. -/
def execAddI (x : Reg) (s : State) : Host.Outcome State Fault Refusal :=
  .next (s.setI (s.i + zextByte (s.reg x)))

/-- LD F, Vx (R182): no check of Vx. -/
def execLdF (x : Reg) (s : State) : Host.Outcome State Fault Refusal :=
  .next (s.setI (glyphAddr s.config (s.reg x)))

/-- LD B, Vx (R183). -/
def execLdB (x : Reg) (s : State) : Host.Outcome State Fault Refusal :=
  conclude (memWriteAll (s.indexAddr 0) (bcdDigits (s.reg x)) s)

/-- LD [I], Vx (R184): I is not modified. -/
def execLdMemVx (x : Reg) (s : State) : Host.Outcome State Fault Refusal :=
  conclude (memWriteAll (s.indexAddr 0) (s.regsUpTo x) s)

/-- LD Vx, [I] (R185): I is not modified. -/
def execLdVxMem (x : Reg) (s : State) : Host.Outcome State Fault Refusal :=
  match memReadAll s (s.indexAddr 0) (x.val + 1) with
  | .error f => raiseFault f
  | .ok bytes => .next (State.setRegsFrom 0 bytes s)

end Sys2Proof.Machine
end

