-- ==== Sys2Proof/Machine/TimersKeypad.lean ====
section
/-! DEFINITION. The timer and keypad instructions (45_timers_keypad.md R220 to R225). -/

namespace Sys2Proof.Machine

/-- Skip when the key V[x] has the level `down`; KEY_INDEX when V[x] > 15 (R220, R221). -/
def skipOnKey (down : Bool) (x : Reg) (s : State) : Host.Outcome State Fault Refusal :=
  if 15 < (s.reg x).toNat then raiseFault (.keyIndex (s.reg x))
  else .next (s.skipIf (s.key (s.reg x).toNat == down))

/-- SKP Vx (R220). -/
def execSkp (x : Reg) (s : State) : Host.Outcome State Fault Refusal := skipOnKey true x s

/-- SKNP Vx (R221). -/
def execSknp (x : Reg) (s : State) : Host.Outcome State Fault Refusal := skipOnKey false x s

/-- LD Vx, DT (R222): DT before this Cycle's post-step. -/
def execLdVxDt (x : Reg) (s : State) : Host.Outcome State Fault Refusal := .next (s.setReg x s.dt)

/-- LD Vx, K (R223): the lowest pressed key, or PC back to this instruction. -/
def execLdVxK (x : Reg) (s : State) : Host.Outcome State Fault Refusal :=
  match firstKey s with
  | some k => .next (s.setReg x (BitVec.ofNat 8 k.val))
  | none => .next (s.setPc (s.pc - 2))

/-- LD DT, Vx (R224). -/
def execLdDtVx (x : Reg) (s : State) : Host.Outcome State Fault Refusal := .next (s.setDt (s.reg x))

/-- LD ST, Vx (R225). -/
def execLdStVx (x : Reg) (s : State) : Host.Outcome State Fault Refusal := .next (s.setSt (s.reg x))

end Sys2Proof.Machine
end

