-- ==== Sys2Proof/Machine/Cycle.lean ====
section
/-! DEFINITION. The Cycle (40_cycle.md R110 to R117): fetch, pre-increment, decode, execute, timer post-step. -/

namespace Sys2Proof.Machine

/-- Step 1 of R111: FETCH_OOB when pc0 + 1 > 0xFFF, else the big-endian word at pc0 (R52); an odd pc0 is no
exception (R53). -/
def fetchWord (s : State) : Except Fault Word :=
  if 0xFFF < s.pc.toNat + 1 then .error (.fetchOob s.pc)
  else .ok (composeWord (s.peek s.pc.toNat) (s.peek (s.pc.toNat + 1)))

/-- Step 2 of R111: `PC <- (pc0 + 2) mod 2^16` (R112). -/
def preIncrement (s : State) : State := s.setPc (s.pc + 2)

/-- `if t != 0 then t - 1` (R116). -/
def countDown (t : Byte) : Byte := if t = 0 then 0 else t - 1

/-- Step 5 of R111, the timer post-step (R116). -/
def timerPostStep (s : State) : State := (s.setDt (countDown s.dt)).setSt (countDown s.st)

/-- How a Cycle that began in `s` with the word `op` ends: after the execute step's outcome, the post-step or the
fault record (R111, R114, R242). -/
def endCycle (s : State) (op : Word) : Host.Outcome State Fault Refusal → Host.Outcome State Fault Refusal
  | .next t => .next (timerPostStep t)
  | .fault f => .next (recordFault f (some op) s)
  | .refused r => .refused r

/-- One Cycle (R111). A faulted machine does not change (step 0); a Cycle that faults records it and changes nothing
else (R242). -/
def cycle (s : State) : Host.Outcome State Fault Refusal :=
  match s.fault with
  | some _ => .next s
  | none =>
    match fetchWord s with
    | .error f => .next (recordFault f none s)
    | .ok op => endCycle s op (exec (decode s.config op) (preIncrement s))

/-- The state with an instruction word in memory at PC, high byte first (R52). -/
def placeWord (op : Word) (s : State) : State := pokeAll s.pc.toNat (wordBytes op) s

end Sys2Proof.Machine
end

