-- ==== Sys2Proof/Machine/Step.lean ====
section
/-! DEFINITION. The machine's one step, the Cycle (40_cycle.md R110). -/

namespace Sys2Proof.Machine

/-- One Cycle (R110, R111). -/
def step (s : State) : Host.Outcome State Fault Refusal := cycle s

/-- `s` with the instruction whose bits are `w` (every row has one 16-bit word; bits at `nbits` and above are 0)
stored where the next Cycle fetches. Memory is all that the fetch needs (log entry 5). -/
def State.withFetchWord (s : State) (nbits w : Nat) : State := placeWord (BitVec.ofNat 16 (w % 2 ^ nbits)) s

end Sys2Proof.Machine
end

