-- ==== Sys2Proof/Machine/HostPort.lean ====
section
/-! DEFINITION. What the host can do between Cycles (60_exceptions.md R252 to R257; 20_memory.md R60). -/

namespace Sys2Proof.Machine

/-- `Load(bytes)` (R60): bytes at 0x200 upward; rejected (none, the host's rejection, state unchanged) when there are
more than 3584. -/
def loadRom (bytes : List Byte) (s : State) : Option State :=
  if 3584 < bytes.length then none else some (pokeAll 0x200 bytes s)

/-- The state after a `Load`: with the bytes in memory or, when the load is rejected, unchanged (R60, R257). That the
run goes on from it is the model's choice: DESIGN CHOICE, log entry 12. -/
def afterLoad (bytes : List Byte) (s : State) : State := (loadRom bytes s).getD s

/-- Keypad update (R253): all sixteen keys at once. -/
def setKeys (k : BitVec 16) (s : State) : State := { s with keys := k }

/-- Framebuffer read (R254): the pixel at column `c`, row `r` is FB[r*64 + c] (R29). -/
def pixelAt (s : State) (c r : Nat) : Bool := pixelOn s.fb (r * 64 + c)

/-- `sound_active = (ST != 0)` (R252). -/
def soundActive (s : State) : Bool := s.st != 0

end Sys2Proof.Machine
end

