-- ==== Sys2Proof/Safety.lean ====
section
/-! DEFINITION. What claims are stated in: runs and their final states (60_exceptions.md R261, R257, R272), the legal
states, and what an instruction may change. -/

namespace Sys2Proof.Machine

/-! ## Runs -/

/-- What the host does between boot and stop (R257). -/
inductive Action where
  | keypad (k : BitVec 16)
  | cycle
  deriving DecidableEq, Repr

/-- One host action. -/
def act (s : State) : Action → Host.Outcome State Fault Refusal
  | .keypad k => .next (setKeys k s)
  | .cycle => step s

/-- A finite sequence of host actions. -/
def runActions : List Action → State → Host.Outcome State Fault Refusal
  | [], s => .next s
  | a :: as, s =>
    match act s a with
    | .next t => runActions as t
    | .fault f => .fault f
    | .refused r => .refused r

/-- Boot (R272): reset, then the optional Load, the only place a run admits one (R256). After a rejected Load the host
may go on, with the reset state unchanged: DESIGN CHOICE, log entry 12 (R257: "keep N <= 3584 or accept rejection"). -/
def boot (c : Config) : Option (List Byte) → State
  | none => State.resetWith c
  | some rom => afterLoad rom (State.resetWith c)

/-- `t` is the final state of the run that boots with `rom` and then takes the actions `as` (R261): a faulted state
is never final. -/
def FinalState (c : Config) (rom : Option (List Byte)) (as : List Action) (t : State) : Prop :=
  runActions as (boot c rom) = .next t ∧ t.fault = none

/-! ## Legal states -/

/-- The states a machine can be in: legal parameters (R7), SP from 0 to 16 (R25), memory in canonical form with
nothing outside 0x000 to 0xFFF (R50). -/
structure State.Inv (s : State) : Prop where
  config : s.config.legal
  sp : s.sp.toNat ≤ 16
  mem : Memory.wf s.config s.mem

/-! ## Frames -/

/-- What an instruction may change, each kind of state named; `slots` are stack entries and `bytes` addresses of
memory. -/
structure Footprint where
  regs : List Reg := []
  pc : Bool := false
  i : Bool := false
  sp : Bool := false
  slots : List Nat := []
  dt : Bool := false
  st : Bool := false
  fb : Bool := false
  draws : Bool := false
  bytes : List Nat := []

/-- `t` is `s` but for the footprint. No instruction changes the keys, the fault record or the parameters. -/
structure SameExcept (f : Footprint) (s t : State) : Prop where
  regs : ∀ x, x ∉ f.regs → t.reg x = s.reg x
  pc : f.pc = false → t.pc = s.pc
  i : f.i = false → t.i = s.i
  sp : f.sp = false → t.sp = s.sp
  slots : ∀ j, (h : j < 16) → j ∉ f.slots → t.stack[j] = s.stack[j]
  dt : f.dt = false → t.dt = s.dt
  st : f.st = false → t.st = s.st
  fb : f.fb = false → t.fb = s.fb
  draws : f.draws = false → t.draws = s.draws
  bytes : ∀ a, a ∉ f.bytes → t.peek a = s.peek a
  keys : t.keys = s.keys
  fault : t.fault = s.fault
  config : t.config = s.config

/-- `count` addresses from `a` upward. -/
def addrsFrom (a count : Nat) : List Nat := (List.range count).map (a + ·)

/-- The registers V0 to Vx. -/
def regsTo (x : Reg) : List Reg := (List.finRange 16).filter (fun r => decide (r ≤ x))

/-- What each instruction may change when its execute step answers a next state (10_state.md R22 to R30): its
destinations, VF for the six flag writers, PC for the control transfers, and the stored bytes, at the addresses the
meaning stores to. -/
def footprint (i : Instr) (s : State) : Footprint :=
  match i with
  | .cls => { fb := true }
  | .ret => { pc := true, sp := true }
  | .sys _ | .nop8 | .nopE | .nopF => {}
  | .jp _ | .jpV0 _ => { pc := true }
  | .call _ => { pc := true, sp := true, slots := [s.sp.toNat] }
  | .seImm _ _ | .sneImm _ _ | .seReg _ _ | .sneReg _ _ | .skp _ | .sknp _ => { pc := true }
  | .ldImm x _ | .addImm x _ | .ldReg x _ | .orReg x _ | .andReg x _ | .xorReg x _ | .ldVxDt x => { regs := [x] }
  | .addReg x _ | .subReg x _ | .shr x _ | .subn x _ | .shl x _ => { regs := [x, 15] }
  | .ldI _ | .addI _ | .ldF _ => { i := true }
  | .rnd x _ => { regs := [x], draws := true }
  | .drw _ _ _ => { regs := [15], fb := true }
  | .ldVxK x => { regs := [x], pc := true }
  | .ldDtVx _ => { dt := true }
  | .ldStVx _ => { st := true }
  | .ldB _ => { bytes := addrsFrom (s.indexAddr 0) 3 }
  | .ldMemVx x => { bytes := addrsFrom (s.indexAddr 0) (x.val + 1) }
  | .ldVxMem x => { regs := regsTo x }

/-! ## Words of rules -/

/-- The outcome with its next state changed, for statements that compare two runs. -/
def mapNext (g : State → State) : Host.Outcome State Fault Refusal → Host.Outcome State Fault Refusal
  | .next t => .next (g t)
  | .fault f => .fault f
  | .refused r => .refused r

/-- `op` is a word of family 0, 8, E or F whose key selects no routine (R84, R86). -/
def UnmappedKey (c : Config) (op : Word) : Prop :=
  (op.toNat / 4096 = 0x0 ∧
    (c.subkey0 = .four → op.toNat % 16 ∉ [0x0, 0xE]) ∧ (c.subkey0 = .eight → op.toNat % 256 ∉ [0xE0, 0xEE])) ∨
  (op.toNat / 4096 = 0x8 ∧ op.toNat % 16 ∉ [0x0, 0x1, 0x2, 0x3, 0x4, 0x5, 0x6, 0x7, 0xE]) ∨
  (op.toNat / 4096 = 0xE ∧
    (c.subkeyE = .four → op.toNat % 16 ∉ [0x1, 0xE]) ∧ (c.subkeyE = .eight → op.toNat % 256 ∉ [0x9E, 0xA1])) ∨
  (op.toNat / 4096 = 0xF ∧ op.toNat % 256 ∉ [0x07, 0x0A, 0x15, 0x18, 0x1E, 0x29, 0x33, 0x55, 0x65])

/-- The Cycle from `s` to `t` executed instruction `i` without a fault (R111). -/
def CycleOf (i : Instr) (s t : State) : Prop :=
  ∃ op, s.fault = none ∧ fetchWord s = .ok op ∧ decode s.config op = i ∧ step s = .next t ∧ t.fault = none

/-- What WriteResultAndFlag leaves (R150, R151): result and flag as numbers; when VF is the destination, the later
write of the order P_FLAG_ORDER stays. -/
def ResultAndFlag (x : Reg) (res flag : Nat) (s t : State) : Prop :=
  (x ≠ 15 → (t.reg x).toNat = res ∧ (t.reg 15).toNat = flag) ∧
  (x = 15 → s.config.flagOrder = .flagThenDest → (t.reg 15).toNat = res) ∧
  (x = 15 → s.config.flagOrder = .destThenFlag → (t.reg 15).toNat = flag)

/-- PC after a Cycle of `i` (R112, R24). -/
def PcRule (i : Instr) (s t : State) : Prop :=
  match i with
  | .jp nnn | .call nnn => t.pc.toNat = nnn.toNat
  | .jpV0 nnn => t.pc.toNat = nnn.toNat + (s.reg 0).toNat
  | .ret => s.stack.toList[s.sp.toNat - 1]? = some t.pc
  | .seImm _ _ | .sneImm _ _ | .seReg _ _ | .sneReg _ _ | .skp _ | .sknp _ => t.pc = s.pc + 2 ∨ t.pc = s.pc + 4
  | .ldVxK _ => t.pc = s.pc + 2 ∨ t.pc = s.pc
  | .cls | .sys _ | .ldImm _ _ | .addImm _ _ | .ldReg _ _ | .orReg _ _ | .andReg _ _ | .xorReg _ _ | .addReg _ _
  | .subReg _ _ | .shr _ _ | .subn _ _ | .shl _ _ | .nop8 | .ldI _ | .rnd _ _ | .drw _ _ _ | .nopE | .ldVxDt _
  | .ldDtVx _ | .ldStVx _ | .addI _ | .ldF _ | .ldB _ | .ldMemVx _ | .ldVxMem _ | .nopF => t.pc = s.pc + 2

/-! ## Sprites -/

/-- The sprite of DRW Vx, Vy, n in state `s` has an on bit in row `row` and column `col` (R201, R205). -/
def SpriteOn (s : State) (n : BitVec 4) (row col : Nat) : Prop :=
  row < n.toNat ∧ col < 8 ∧ (s.peek (s.i.toNat + row)).getLsbD (7 - col) = true

/-- The screen column of sprite column `col` (R202). -/
def spriteCol (s : State) (x : Reg) (col : Nat) : Nat := (s.reg x).toNat % 64 + col

/-- The screen row of sprite row `row` (R202). -/
def spriteRow (s : State) (y : Reg) (row : Nat) : Nat := (s.reg y).toNat % 32 + row

/-- Pixel `p` is where the mode places the screen position (c, r) (R204). -/
def Targets (edge : DrawEdge) (c r p : Nat) : Prop :=
  match edge with
  | .flat => p = r * 64 + c ∧ p ≤ 2047
  | .clip => p = r * 64 + c ∧ c ≤ 63 ∧ r ≤ 31
  | .wrap => p = (r % 32) * 64 + c % 64

/-- An on bit of the sprite is placed on pixel `p`. -/
def Covers (s : State) (x y : Reg) (n : BitVec 4) (p : Nat) : Prop :=
  ∃ row col, SpriteOn s n row col ∧ Targets s.config.drawEdge (spriteCol s x col) (spriteRow s y row) p

/-- The on bit in row `row` and column `col` leaves the framebuffer under `flat` (R204). -/
def LeavesScreen (s : State) (x y : Reg) (n : BitVec 4) (row col : Nat) : Prop :=
  SpriteOn s n row col ∧ s.config.drawEdge = .flat ∧ 2047 < spriteRow s y row * 64 + spriteCol s x col

/-- When the execute step of `i` raises a fault (R241). -/
def FaultCause (i : Instr) (s : State) : Prop :=
  match i with
  | .call _ => s.sp.toNat = 16
  | .ret => s.sp.toNat = 0
  | .ldB _ => 0xFFF < s.i.toNat + 2
  | .ldMemVx x | .ldVxMem x => 0xFFF < s.i.toNat + x.val
  | .skp x | .sknp x => 15 < (s.reg x).toNat
  | .drw x y n =>
    (∃ row < n.toNat, 0xFFF < s.i.toNat + row) ∨ ∃ row col, LeavesScreen s x y n row col
  | .cls | .sys _ | .jp _ | .jpV0 _ | .seImm _ _ | .sneImm _ _ | .seReg _ _ | .sneReg _ _ | .ldImm _ _ | .addImm _ _
  | .ldReg _ _ | .orReg _ _ | .andReg _ _ | .xorReg _ _ | .addReg _ _ | .subReg _ _ | .shr _ _ | .subn _ _ | .shl _ _
  | .nop8 | .ldI _ | .rnd _ _ | .nopE | .ldVxDt _ | .ldVxK _ | .ldDtVx _ | .ldStVx _ | .addI _ | .ldF _
  | .nopF => False

end Sys2Proof.Machine
end

