-- ==== Sys2Proof/Certificates/Slice0/Obligations.lean ====
section
/-! DEFINITION. The statements for the provers, each with the rule or the sections of spec/ it formalises. -/

open Sys2Proof Sys2Proof.Machine

/-! ## Reset and boot -/

/-- R36, R270: what every piece of state holds after reset, for every value of the parameters. The stack entries, which
R36 leaves unspecified, are not mentioned. -/
def Obligations.ResetLeavesTheStatedValues : Prop :=
  ∀ c : Config,
    (∀ x, (State.resetWith c).reg x = 0) ∧
    (State.resetWith c).i = 0 ∧ (State.resetWith c).pc = 0x200 ∧ (State.resetWith c).sp = 0 ∧
    (State.resetWith c).dt = 0 ∧ (State.resetWith c).st = 0 ∧
    (∀ p < 2048, pixelOn (State.resetWith c).fb p = false) ∧
    (∀ k < 16, (State.resetWith c).key k = false) ∧
    (∀ k, (h : k < 80) → (State.resetWith c).peek (c.fontBase.toNat + k) = c.fontData[k]) ∧
    (∀ a ≤ 0xFFF, (a < c.fontBase.toNat ∨ c.fontBase.toNat + 80 ≤ a) → (State.resetWith c).peek a = 0) ∧
    (State.resetWith c).fault = none

/-- The invariant of legal states (R7, R25, R50) holds after reset, for every legal value of the parameters. -/
def Obligations.ResetIsLegal : Prop := ∀ c : Config, c.legal → (State.resetWith c).Inv

/-- R272, R57: the first word of a loaded ROM is the first word fetched. -/
def Obligations.BootedRomIsFetchedFirst : Prop :=
  ∀ (c : Config) (hi lo : Byte) (rest : List Byte), rest.length ≤ 3582 →
    (boot c (some (hi :: lo :: rest))).fault = none ∧
    fetchWord (boot c (some (hi :: lo :: rest))) = .ok (composeWord hi lo)

/-- R60: Load copies the bytes to 0x200 upward and changes nothing else, or is rejected above 3584 bytes; the host's other
write, the keypad's, leaves memory alone. -/
def Obligations.LoadCopiesOrRejects : Prop :=
  (∀ (keys : BitVec 16) (s : State) (a : Nat), (setKeys keys s).peek a = s.peek a) ∧
  ∀ (bytes : List Byte) (s : State),
    (3584 < bytes.length → loadRom bytes s = none) ∧
    (bytes.length ≤ 3584 → ∃ t, loadRom bytes s = some t ∧
      (∀ k, (h : k < bytes.length) → t.peek (0x200 + k) = bytes[k]) ∧
      SameExcept { bytes := addrsFrom 0x200 bytes.length } s t)

/-! ## Invariants and whole-machine rules -/

/-- Every step keeps the legal states: legal parameters (R7), SP from 0 to 16 (R25), memory in canonical form within
0x000 to 0xFFF (R50). -/
def Obligations.EveryStepKeepsLegality : Prop := ∀ s t : State, s.Inv → step s = .next t → t.Inv

/-- In a legal state every Cycle answers a next state: nothing is refused (R86, R88) and a fault is recorded (R242). -/
def Obligations.EveryCycleAnswersANextState : Prop := ∀ s : State, s.Inv → ∃ t, step s = .next t

/-- A meaning is refused only for SP above 16, and only in CALL and RET: the model's choice for states that R25 says are
never reached (log entry 4). -/
def Obligations.RefusedOnlyAboveSixteen : Prop :=
  ∀ (i : Instr) (s : State),
    (∃ r, exec i s = .refused r) ↔ 16 < s.sp.toNat ∧ (i = .ret ∨ ∃ nnn, i = .call nnn)

/-- R241: an instruction faults exactly when its condition holds. That these conditions fault is the spec's own
decision (D10, D11, D15, D16). SP above 16 is excluded, which R25 says never happens. -/
def Obligations.FaultsExactlyOnTheListedConditions : Prop :=
  ∀ (i : Instr) (s : State), s.sp.toNat ≤ 16 → ((∃ f, exec i s = .fault f) ↔ FaultCause i s)

/-- What each instruction leaves unchanged when it answers a next state (10_state.md R22 to R30): everything outside
its footprint. R22's exclusions are the spec's reading (D8, D9). -/
def Obligations.FrameOfEveryInstruction : Prop :=
  ∀ (i : Instr) (s t : State), exec i s = .next t → SameExcept (footprint i s) s t

/-- R26: CALL writes Stack[SP] and RET reads Stack[SP-1] without clearing it; no other instruction and no host operation
reads or writes the stack. Last clause: no Cycle reads an entry at SP or above, so a popped entry is read again only after a
CALL has rewritten it. -/
def Obligations.StackTouchedOnlyByCallAndRet : Prop :=
  (∀ (i : Instr) (s : State) (k : Vector Word 16), i ≠ .ret → (∀ nnn, i ≠ .call nnn) →
    exec i { s with stack := k } = mapNext (fun t => { t with stack := k }) (exec i s)) ∧
  (∀ (nnn : BitVec 12) (s t : State), exec (.call nnn) s = .next t →
    t.stack.toList = s.stack.toList.set s.sp.toNat s.pc) ∧
  (∀ s t : State, exec .ret s = .next t →
    t.stack = s.stack ∧ s.stack.toList[s.sp.toNat - 1]? = some t.pc ∧ 0 < s.sp.toNat) ∧
  (∀ (rom : List Byte) (s : State) (k : Vector Word 16),
    loadRom rom { s with stack := k } = (loadRom rom s).map (fun t => { t with stack := k })) ∧
  (∀ (keys : BitVec 16) (s : State) (k : Vector Word 16),
    setKeys keys { s with stack := k } = { setKeys keys s with stack := k }) ∧
  (∀ (s t : State) (k : Vector Word 16), (∀ j < s.sp.toNat, k.toList[j]? = s.stack.toList[j]?) → step s = .next t →
    ∃ m : Vector Word 16, step { s with stack := k } = .next { t with stack := m } ∧
      ∀ j < t.sp.toNat, m.toList[j]? = t.stack.toList[j]?)

/-- R28: LD ST,Vx writes ST, no instruction reads it, the Cycle counts it down while nonzero, and the host reads whether it is
nonzero. -/
def Obligations.SoundTimerIsWrittenButNeverRead : Prop :=
  (∀ (i : Instr) (s : State) (b : Byte), (∀ x, i ≠ .ldStVx x) →
    exec i { s with st := b } = mapNext (fun t => { t with st := b }) (exec i s)) ∧
  (∀ (x : Reg) (s : State) (b : Byte), exec (.ldStVx x) { s with st := b } = exec (.ldStVx x) s) ∧
  (∀ (x : Reg) (s t : State), exec (.ldStVx x) s = .next t → t.st = s.reg x) ∧
  (∀ (i : Instr) (s t : State), CycleOf i s t → (∀ x, i ≠ .ldStVx x) → t.st.toNat = s.st.toNat - 1) ∧
  (∀ s : State, soundActive s = true ↔ s.st ≠ 0)

/-- R30: the host overwrites all sixteen keys at once, only SKP, SKNP and LD Vx,K read them, and no instruction writes
them. -/
def Obligations.KeypadIsReadOnlyByKeyInstructions : Prop :=
  (∀ (i : Instr) (s : State) (k : BitVec 16),
    (∀ x, i ≠ .skp x) → (∀ x, i ≠ .sknp x) → (∀ x, i ≠ .ldVxK x) →
    exec i (setKeys k s) = mapNext (setKeys k) (exec i s)) ∧
  (∀ (i : Instr) (s t : State), exec i s = .next t → t.keys = s.keys) ∧
  (∀ (k : BitVec 16) (s : State), ∀ j < 16, (setKeys k s).key j = k.getLsbD j)

/-- R113, R7: no step changes the parameters or the keypad, and no step clears a fault record (R242). -/
def Obligations.ParametersKeysAndFaultRecordStay : Prop :=
  ∀ s t : State, step s = .next t → t.config = s.config ∧ t.keys = s.keys ∧ (s.fault ≠ none → t.fault = s.fault)

/-! ## Memory -/

/-- A write that happens is what later reads of that byte give, and every other address reads, or faults, as before
(R50, R61). -/
def Obligations.ReadAfterWrite : Prop :=
  ∀ (s t : State) (a : Nat) (v : Byte), s.memWrite a v = .ok t →
    ∀ b, t.memRead b = if b = a then .ok v else s.memRead b

/-- R54, R55: a data access faults exactly above 0xFFF, a fetch exactly when PC > 0xFFE. That they fault is the spec's
decision (D11, D12). -/
def Obligations.AccessesFaultExactlyOutOfRange : Prop :=
  ∀ (s : State) (a : Nat) (v : Byte),
    (0xFFF < a → s.memRead a = .error (.memOob a) ∧ s.memWrite a v = .error (.memOob a)) ∧
    (a ≤ 0xFFF → s.memRead a = .ok (s.peek a) ∧ ∃ t, s.memWrite a v = .ok t) ∧
    (0xFFE < s.pc.toNat → fetchWord s = .error (.fetchOob s.pc)) ∧
    (s.pc.toNat ≤ 0xFFE → ∃ op, fetchWord s = .ok op)

/-- R63: a byte stored is the byte that the next fetch of its address reads (D24). -/
def Obligations.StoredByteIsFetched : Prop :=
  ∀ (s t : State) (a : Nat) (v : Byte), s.memWrite a v = .ok t → s.pc.toNat + 1 ≤ 0xFFF →
    (a = s.pc.toNat → ∃ op, fetchWord t = .ok op ∧ op.toNat / 256 = v.toNat) ∧
    (a = s.pc.toNat + 1 → ∃ op, fetchWord t = .ok op ∧ op.toNat % 256 = v.toNat)

/-- R52: the instruction word is big-endian. -/
def Obligations.FetchIsBigEndian : Prop :=
  ∀ s : State, s.pc.toNat + 1 ≤ 0xFFF →
    ∃ op, fetchWord s = .ok op ∧
      op.toNat = (s.peek s.pc.toNat).toNat * 256 + (s.peek (s.pc.toNat + 1)).toNat

/-! ## Decoding -/

/-- Every well-formed instruction, with every operand at every value, decodes from its encoding, whatever bytes
follow it (R80 to R89). -/
def Obligations.DecodeOfEncode : Prop :=
  ∀ (c : Config) (i : Instr) (rest : List Byte), i.wellFormed c = true →
    decodeBytes c (encodeBytes i ++ rest) = .ok (i, rest)

/-- Every word decodes to a well-formed instruction (R85, R88). -/
def Obligations.EveryWordDecodesWellFormed : Prop :=
  ∀ (c : Config) (op : Word), (decode c op).wellFormed c = true

/-- R90: the opcode table read first-match decodes every word as the algorithm of R85 does, under every key width
(D2). -/
def Obligations.DecodeAgreesWithOpcodeTable : Prop :=
  ∀ (c : Config) (op : Word), decodeByTable c op = some (decode c op)

/-- R86: a word of family 0, 8, E or F whose key selects no routine does nothing in the execute step, and its Cycle
advances PC and the timers. -/
def Obligations.UnmappedKeysAreNoOps : Prop :=
  ∀ (op : Word) (s : State), UnmappedKey s.config op →
    (∀ u : State, exec (decode s.config op) u = .next u) ∧
    (s.fault = none → fetchWord s = .ok op → ∃ t, step s = .next t ∧ t.pc = s.pc + 2 ∧
      t.dt.toNat = s.dt.toNat - 1 ∧ t.st.toNat = s.st.toNat - 1 ∧
      SameExcept { pc := true, dt := true, st := true } s t)

/-- R87: the twelve families without a sub-opcode each have one routine, which ignores the bits its format does not
use. -/
def Obligations.TwelveFamiliesMapOneToOne : Prop :=
  ∀ (c : Config) (x y : Reg) (n : BitVec 4) (kk : Byte) (nnn : BitVec 12),
    decode c (wordNnn 0x1 nnn) = .jp nnn ∧ decode c (wordNnn 0x2 nnn) = .call nnn ∧
    decode c (wordXkk 0x3 x kk) = .seImm x kk ∧ decode c (wordXkk 0x4 x kk) = .sneImm x kk ∧
    decode c (wordXyn 0x5 x y n) = .seReg x y ∧ decode c (wordXkk 0x6 x kk) = .ldImm x kk ∧
    decode c (wordXkk 0x7 x kk) = .addImm x kk ∧ decode c (wordXyn 0x9 x y n) = .sneReg x y ∧
    decode c (wordNnn 0xA nnn) = .ldI nnn ∧ decode c (wordNnn 0xB nnn) = .jpV0 nnn ∧
    decode c (wordXkk 0xC x kk) = .rnd x kk ∧ decode c (wordXyn 0xD x y n) = .drw x y n

/-- A few words of the spec's examples decode to the instruction they stand for (R89; 0x600A is the source's own). -/
def Obligations.ExampleWordsDecode : Prop :=
  ∀ c : Config,
    decode c 0x600A = .ldImm 0 0x0A ∧ decode c 0x8014 = .addReg 0 1 ∧ decode c 0x1234 = .jp 0x234 ∧
    decode c 0x2208 = .call 0x208 ∧ decode c 0xD005 = .drw 0 0 5 ∧ decode c 0xF265 = .ldVxMem 2 ∧
    decode c 0xE19E = .skp 1 ∧ decode c 0x00EE = .ret ∧ decode c 0xA2F0 = .ldI 0x2F0

/-! ## The Cycle -/

/-- A step runs the decoded instruction (R111): exec of it on the pre-incremented state (R112), then the timer
post-step (R116); a fault is recorded with pc0 and the word (R242); a refusal stops. -/
def Obligations.StepRunsTheDecodedInstruction : Prop :=
  ∀ (s : State) (i : Instr), s.fault = none → s.pc.toNat + 1 ≤ 0xFFF →
    decodeBytes s.config [s.peek s.pc.toNat, s.peek (s.pc.toNat + 1)] = .ok (i, []) →
    i.wellFormed s.config = true →
    (∀ t, exec i { s with pc := s.pc + 2 } = .next t →
      step s = .next { t with
        dt := if t.dt = 0 then 0 else t.dt - 1
        st := if t.st = 0 then 0 else t.st - 1 }) ∧
    (∀ f, exec i { s with pc := s.pc + 2 } = .fault f →
      step s = .next { s with
        fault := some ⟨f, s.pc, some (composeWord (s.peek s.pc.toNat) (s.peek (s.pc.toNat + 1)))⟩ }) ∧
    (∀ r, exec i { s with pc := s.pc + 2 } = .refused r → step s = .refused r)

/-- R242, R243: a fault discards the whole Cycle and records (code, info, pc0, op), a fetch out of range before
anything else and without op. That a fault does this is the spec's decision (D22). -/
def Obligations.FaultDiscardsTheCycleAndIsRecorded : Prop :=
  ∀ s : State, s.fault = none →
    (0xFFF < s.pc.toNat + 1 → step s = .next { s with fault := some ⟨.fetchOob s.pc, s.pc, none⟩ }) ∧
    (∀ op f, fetchWord s = .ok op → exec (decode s.config op) { s with pc := s.pc + 2 } = .fault f →
      step s = .next { s with fault := some ⟨f, s.pc, some op⟩ })

/-- R242, R111 step 0: however many Cycles follow a fault, nothing changes (D22). -/
def Obligations.FaultedMachineNeverChanges : Prop :=
  ∀ (s : State) (n : Nat), s.fault ≠ none → core.run n s = .next s

/-- R116: at the end of every Cycle that does not fault, after the execute step (here to `u`), each timer goes down by 1
while nonzero, on its own, whatever executed. -/
def Obligations.TimersCountDownOncePerCycle : Prop :=
  ∀ (i : Instr) (s t : State), CycleOf i s t →
    ((∀ x, i ≠ .ldDtVx x) → t.dt.toNat = s.dt.toNat - 1) ∧
    ((∀ x, i ≠ .ldStVx x) → t.st.toNat = s.st.toNat - 1) ∧
    ∃ u, exec i { s with pc := s.pc + 2 } = .next u ∧ t.dt.toNat = u.dt.toNat - 1 ∧ t.st.toNat = u.st.toNat - 1 ∧
      SameExcept { dt := true, st := true } u t

/-- A timer that a Cycle's instruction wrote goes down from the value written, in the same Cycle (40_cycle.md R117, marked
derived there). -/
def Obligations.WrittenTimerCountsDownInItsOwnCycle : Prop :=
  ∀ (x : Reg) (s t : State),
    (CycleOf (.ldDtVx x) s t → t.dt.toNat = (s.reg x).toNat - 1 ∧ t.st.toNat = s.st.toNat - 1) ∧
    (CycleOf (.ldStVx x) s t → t.st.toNat = (s.reg x).toNat - 1 ∧ t.dt.toNat = s.dt.toNat - 1) ∧
    (CycleOf (.ldVxDt x) s t → t.reg x = s.dt ∧ t.dt.toNat = s.dt.toNat - 1)

/-- R118: d Cycles that do not write DT bring DT = d to 0, and it stays 0: after n Cycles of a run, DT is its first value
less n, cut at 0. -/
def Obligations.DelayTimerCountsCycles : Prop :=
  ∀ (run : Nat → State) (instr : Nat → Instr) (n : Nat),
    (∀ k < n, CycleOf (instr k) (run k) (run (k + 1)) ∧ ∀ x, instr k ≠ .ldDtVx x) →
    (run n).dt.toNat = (run 0).dt.toNat - n

/-- PC after a Cycle, for every instruction (R112, R24). That JP and JP V0 go to nnn and nnn + V0 is marked general
knowledge in the spec (R133, R138: "the semantics PC <- nnn"). -/
def Obligations.PcAfterEveryCycle : Prop :=
  ∀ (i : Instr) (s t : State), CycleOf i s t → PcRule i s t

/-- R120: a Cycle that leaves PC where it was is LD Vx,K with no key pressed, or a control transfer to its own address. -/
def Obligations.OnlyKeyWaitRollsPcBack : Prop :=
  ∀ (i : Instr) (s t : State), CycleOf i s t → t.pc = s.pc →
    (∃ x, i = .ldVxK x ∧ (∀ k < 16, s.key k = false) ∧ SameExcept { dt := true, st := true } s t) ∨
    (∃ nnn, i = .jp nnn) ∨ (∃ nnn, i = .jpV0 nnn) ∨ (∃ nnn, i = .call nnn) ∨ i = .ret

/-! ## Control transfer -/

/-- R86, R130: SYS and the unmapped no-ops do nothing. -/
def Obligations.NoOpsChangeNothing : Prop :=
  ∀ (s : State) (nnn : BitVec 12),
    exec (.sys nnn) s = .next s ∧ exec .nop8 s = .next s ∧ exec .nopE s = .next s ∧ exec .nopF s = .next s

/-- JP nnn and JP V0,nnn (41_control.md). Their semantics are marked general knowledge in the spec (R133: "[from general
knowledge, not in source: the semantics PC <- nnn]"; R138 likewise, and D35). -/
def Obligations.JumpsSetPc : Prop :=
  ∀ (nnn : BitVec 12) (s : State),
    (∃ t, exec (.jp nnn) s = .next t ∧ t.pc.toNat = nnn.toNat ∧ SameExcept { pc := true } s t) ∧
    (∃ t, exec (.jpV0 nnn) s = .next t ∧ t.pc.toNat = nnn.toNat + (s.reg 0).toNat ∧
      SameExcept { pc := true } s t)

/-- CALL (41_control.md): below depth 16 it pushes PC and jumps; at 16 it faults, which is the spec's choice (R132: "faulting
is the spec's choice", D10). -/
def Obligations.CallPushesTheReturnAddress : Prop :=
  ∀ (nnn : BitVec 12) (s : State),
    ((h : s.sp.toNat < 16) → ∃ t, exec (.call nnn) s = .next t ∧ t.stack[s.sp.toNat] = s.pc ∧
      t.sp.toNat = s.sp.toNat + 1 ∧ t.pc.toNat = nnn.toNat ∧
      SameExcept { pc := true, sp := true, slots := [s.sp.toNat] } s t) ∧
    (s.sp.toNat = 16 → exec (.call nnn) s = .fault (.stackOverflow s.sp))

/-- RET (41_control.md): above depth 0 it pops PC; at 0 it faults, which is the spec's choice (R131: "faulting is the
spec's choice", D10). -/
def Obligations.RetPopsTheReturnAddress : Prop :=
  ∀ s : State,
    ((h : 0 < s.sp.toNat ∧ s.sp.toNat ≤ 16) → ∃ t, exec .ret s = .next t ∧
      t.pc = s.stack[s.sp.toNat - 1] ∧ t.sp.toNat + 1 = s.sp.toNat ∧
      SameExcept { pc := true, sp := true } s t) ∧
    (s.sp.toNat = 0 → exec .ret s = .fault (.stackUnderflow s.sp))

/-- The source's property W8 (R132): a RET that finds the stack as a CALL left it restores PC and SP as they were at the
CALL. -/
def Obligations.RetAfterCallRestoresPc : Prop :=
  ∀ (nnn : BitVec 12) (s t u : State), exec (.call nnn) s = .next t → u.sp = t.sp → u.stack = t.stack →
    ∃ r, exec .ret u = .next r ∧ r.pc = s.pc ∧ r.sp = s.sp

/-- R134, R135: the skips on an immediate. -/
def Obligations.SkipsOnImmediate : Prop :=
  ∀ (x : Reg) (kk : Byte) (s : State),
    (∃ t, exec (.seImm x kk) s = .next t ∧ (s.reg x = kk → t.pc.toNat = (s.pc.toNat + 2) % 65536) ∧
      (s.reg x ≠ kk → t.pc = s.pc) ∧ SameExcept { pc := true } s t) ∧
    (∃ t, exec (.sneImm x kk) s = .next t ∧ (s.reg x ≠ kk → t.pc.toNat = (s.pc.toNat + 2) % 65536) ∧
      (s.reg x = kk → t.pc = s.pc) ∧ SameExcept { pc := true } s t)

/-- R136, R137: the skips on two registers. -/
def Obligations.SkipsOnRegisters : Prop :=
  ∀ (x y : Reg) (s : State),
    (∃ t, exec (.seReg x y) s = .next t ∧ (s.reg x = s.reg y → t.pc.toNat = (s.pc.toNat + 2) % 65536) ∧
      (s.reg x ≠ s.reg y → t.pc = s.pc) ∧ SameExcept { pc := true } s t) ∧
    (∃ t, exec (.sneReg x y) s = .next t ∧ (s.reg x ≠ s.reg y → t.pc.toNat = (s.pc.toNat + 2) % 65536) ∧
      (s.reg x = s.reg y → t.pc = s.pc) ∧ SameExcept { pc := true } s t)

/-! ## Registers and ALU -/

/-- R152, R153: LD Vx,kk, and ADD Vx,kk, which writes no flag: VF stays unless it is Vx. -/
def Obligations.ImmediateLoadAndAdd : Prop :=
  ∀ (x : Reg) (kk : Byte) (s : State),
    (∃ t, exec (.ldImm x kk) s = .next t ∧ t.reg x = kk ∧ SameExcept { regs := [x] } s t) ∧
    (∃ t, exec (.addImm x kk) s = .next t ∧ (t.reg x).toNat = ((s.reg x).toNat + kk.toNat) % 256 ∧
      SameExcept { regs := [x] } s t)

/-- LD, OR, AND, XOR Vx,Vy (42_alu.md): bit by bit, VF unchanged unless it is Vx. Their semantics are marked general
knowledge in the spec (R154 to R157) and VF's preservation a decision (D8). -/
def Obligations.MoveAndLogic : Prop :=
  ∀ (x y : Reg) (s : State),
    (∃ t, exec (.ldReg x y) s = .next t ∧ t.reg x = s.reg y ∧ SameExcept { regs := [x] } s t) ∧
    (∃ t, exec (.orReg x y) s = .next t ∧
      (∀ k < 8, (t.reg x).getLsbD k = ((s.reg x).getLsbD k || (s.reg y).getLsbD k)) ∧
      SameExcept { regs := [x] } s t) ∧
    (∃ t, exec (.andReg x y) s = .next t ∧
      (∀ k < 8, (t.reg x).getLsbD k = ((s.reg x).getLsbD k && (s.reg y).getLsbD k)) ∧
      SameExcept { regs := [x] } s t) ∧
    (∃ t, exec (.xorReg x y) s = .next t ∧
      (∀ k < 8, (t.reg x).getLsbD k = ((s.reg x).getLsbD k != (s.reg y).getLsbD k)) ∧
      SameExcept { regs := [x] } s t)

/-- R158, R150, R151: ADD Vx,Vy, under both orders of the flag write. -/
def Obligations.AddSetsCarry : Prop :=
  ∀ (x y : Reg) (s : State), ∃ t, exec (.addReg x y) s = .next t ∧
    ResultAndFlag x (((s.reg x).toNat + (s.reg y).toNat) % 256)
      (if 255 < (s.reg x).toNat + (s.reg y).toNat then 1 else 0) s t ∧
    SameExcept { regs := [x, 15] } s t

/-- R159, R161: SUB and SUBN, with the strict no-borrow flag, under both orders of the flag write. -/
def Obligations.SubtractionsSetNoBorrow : Prop :=
  ∀ (x y : Reg) (s : State),
    (∃ t, exec (.subReg x y) s = .next t ∧
      ResultAndFlag x ((256 + (s.reg x).toNat - (s.reg y).toNat) % 256)
        (if (s.reg y).toNat < (s.reg x).toNat then 1 else 0) s t ∧
      SameExcept { regs := [x, 15] } s t) ∧
    (∃ t, exec (.subn x y) s = .next t ∧
      ResultAndFlag x ((256 + (s.reg y).toNat - (s.reg x).toNat) % 256)
        (if (s.reg x).toNat < (s.reg y).toNat then 1 else 0) s t ∧
      SameExcept { regs := [x, 15] } s t)

/-- SHR and SHL (42_alu.md): Vx is shifted in place, VF gets the bit shifted out. That Vy is not read is the spec's
reading (R160: "That is the spec's reading", D7). -/
def Obligations.ShiftsMoveOneBit : Prop :=
  ∀ (x y : Reg) (s : State),
    (∃ t, exec (.shr x y) s = .next t ∧
      ResultAndFlag x ((s.reg x).toNat / 2) ((s.reg x).toNat % 2) s t ∧ SameExcept { regs := [x, 15] } s t) ∧
    (∃ t, exec (.shl x y) s = .next t ∧
      ResultAndFlag x ((s.reg x).toNat * 2 % 256) ((s.reg x).toNat / 128) s t ∧
      SameExcept { regs := [x, 15] } s t)

/-- RND (42_alu.md): the next free draw, masked; whatever the draw, the bits outside kk are 0. The draw is the model's free
value (log entry 2, D21). -/
def Obligations.RandomByteIsMasked : Prop :=
  ∀ (x : Reg) (kk : Byte) (s : State), ∃ t, exec (.rnd x kk) s = .next t ∧
    (∀ k < 8, (t.reg x).getLsbD k = ((Config.randomByte s.draws).getLsbD k && kk.getLsbD k)) ∧
    t.draws = s.draws + 1 ∧ SameExcept { regs := [x], draws := true } s t

/-! ## Index register and memory -/

/-- LD I, ADD I and LD F (43_index_memory.md). Their semantics are marked general knowledge in the spec (R180 to R182,
D9, D19, D20). -/
def Obligations.IndexRegisterWrites : Prop :=
  ∀ (nnn : BitVec 12) (x : Reg) (s : State),
    (∃ t, exec (.ldI nnn) s = .next t ∧ t.i.toNat = nnn.toNat ∧ SameExcept { i := true } s t) ∧
    (∃ t, exec (.addI x) s = .next t ∧ t.i.toNat = (s.i.toNat + (s.reg x).toNat) % 65536 ∧
      SameExcept { i := true } s t) ∧
    (∃ t, exec (.ldF x) s = .next t ∧ t.i.toNat = (s.config.fontBase.toNat + 5 * (s.reg x).toNat) % 65536 ∧
      SameExcept { i := true } s t)

/-- LD B,Vx (43_index_memory.md): the digits at I, I+1, I+2, I and every other byte unchanged; nothing at all when the
range leaves memory, which is the spec's decision (D11). -/
def Obligations.BcdDigitsAreStored : Prop :=
  ∀ (x : Reg) (s : State),
    (s.i.toNat + 2 ≤ 0xFFF → ∃ t, exec (.ldB x) s = .next t ∧
      (t.peek s.i.toNat).toNat = (s.reg x).toNat / 100 ∧
      (t.peek (s.i.toNat + 1)).toNat = (s.reg x).toNat / 10 % 10 ∧
      (t.peek (s.i.toNat + 2)).toNat = (s.reg x).toNat % 10 ∧
      SameExcept { bytes := addrsFrom (s.indexAddr 0) 3 } s t) ∧
    (0xFFF < s.i.toNat + 2 → exec (.ldB x) s = .fault (.memOob (max s.i.toNat 0x1000)))

/-- LD [I],Vx (43_index_memory.md): V0 to Vx at I upward, I and every other byte unchanged; nothing at all when the range
leaves memory, which is the spec's decision (D11). -/
def Obligations.RegistersAreDumped : Prop :=
  ∀ (x : Reg) (s : State),
    (s.i.toNat + x.val ≤ 0xFFF → ∃ t, exec (.ldMemVx x) s = .next t ∧
      (∀ k : Reg, k ≤ x → t.peek (s.i.toNat + k.val) = s.reg k) ∧
      SameExcept { bytes := addrsFrom (s.indexAddr 0) (x.val + 1) } s t) ∧
    (0xFFF < s.i.toNat + x.val → exec (.ldMemVx x) s = .fault (.memOob (max s.i.toNat 0x1000)))

/-- LD Vx,[I] (43_index_memory.md): V0 to Vx from I upward, everything else unchanged; no register written when the range
leaves memory, which is the spec's decision (D11). -/
def Obligations.RegistersAreLoaded : Prop :=
  ∀ (x : Reg) (s : State),
    (s.i.toNat + x.val ≤ 0xFFF → ∃ t, exec (.ldVxMem x) s = .next t ∧
      (∀ k : Reg, k ≤ x → t.reg k = s.peek (s.i.toNat + k.val)) ∧
      SameExcept { regs := regsTo x } s t) ∧
    (0xFFF < s.i.toNat + x.val → exec (.ldVxMem x) s = .fault (.memOob (max s.i.toNat 0x1000)))

/-- Registers dumped by LD [I],Vx come back by LD Vx,[I] from any state whose I and memory are as the dump left them
(43_index_memory.md). -/
def Obligations.LoadRestoresADump : Prop :=
  ∀ (x : Reg) (s t u : State), exec (.ldMemVx x) s = .next t → u.i = t.i → (∀ a, u.peek a = t.peek a) →
    ∃ r, exec (.ldVxMem x) u = .next r ∧ ∀ k : Reg, k ≤ x → r.reg k = s.reg k

/-! ## Display -/

/-- R200: CLS turns every pixel off, VF and everything else unchanged. -/
def Obligations.ClearScreenTurnsEveryPixelOff : Prop :=
  ∀ s : State, ∃ t, exec .cls s = .next t ∧ (∀ p < 2048, pixelOn t.fb p = false) ∧ SameExcept { fb := true } s t

/-- DRW (44_display.md R201 to R205): without a fault, exactly the covered pixels flip, and VF is 1 iff a covered pixel was on
before, in all three edge modes. The modes and the bit order are the spec's decisions (D16 to D18), the flag's wording is
derived there (R203). -/
def Obligations.DrawFlipsCoveredPixelsAndDetectsCollision : Prop :=
  ∀ (x y : Reg) (n : BitVec 4) (s : State), ¬ FaultCause (.drw x y n) s →
    ∃ t, exec (.drw x y n) s = .next t ∧
      (∀ p < 2048, Covers s x y n p → pixelOn t.fb p = !pixelOn s.fb p) ∧
      (∀ p < 2048, ¬ Covers s x y n p → pixelOn t.fb p = pixelOn s.fb p) ∧
      ((∃ p < 2048, Covers s x y n p ∧ pixelOn s.fb p = true) → t.reg 15 = 1) ∧
      ((¬ ∃ p < 2048, Covers s x y n p ∧ pixelOn s.fb p = true) → t.reg 15 = 0) ∧
      SameExcept { regs := [15], fb := true } s t

/-- The fault that DRW reports (R243, D29): rows in order, a row's memory before its pixels, pixels left to right. -/
def Obligations.DrawReportsItsFirstFault : Prop :=
  ∀ (x y : Reg) (n : BitVec 4) (s : State) (f : Fault), exec (.drw x y n) s = .fault f →
    ∃ row < n.toNat,
      (∀ q < row, s.i.toNat + q ≤ 0xFFF ∧ ∀ col, ¬ LeavesScreen s x y n q col) ∧
      ((0xFFF < s.i.toNat + row ∧ f = .memOob (s.i.toNat + row)) ∨
       (s.i.toNat + row ≤ 0xFFF ∧ ∃ col, LeavesScreen s x y n row col ∧
         (∀ c < col, ¬ LeavesScreen s x y n row c) ∧
         f = .drawOob (spriteRow s y row * 64 + spriteCol s x col)))

/-- A sprite of height 0 always completes: no memory is read, no pixel changes, VF ends at 0 (44_display.md R206, marked
derived there). -/
def Obligations.EmptySpriteOnlyClearsVf : Prop :=
  ∀ (x y : Reg) (s : State), ∃ t, exec (.drw x y 0) s = .next t ∧ t.reg 15 = 0 ∧
    SameExcept { regs := [15] } s t

/-- The same sprite drawn twice at the same place restores the framebuffer, and the second draw collides exactly when a
covered pixel was off before the first (44_display.md R207, marked derived there). VF is no origin, or the origin would
change. -/
def Obligations.DrawingTwiceRestoresTheScreen : Prop :=
  ∀ (x y : Reg) (n : BitVec 4) (s t : State), x ≠ 15 → y ≠ 15 → exec (.drw x y n) s = .next t →
    ∃ u, exec (.drw x y n) t = .next u ∧ u.fb = s.fb ∧
      (u.reg 15 = 1 ↔ ∃ p < 2048, Covers s x y n p ∧ pixelOn s.fb p = false)

/-- Within one sprite, different positions go to different pixels, inside the framebuffer, in all three modes (R203,
R204; the modes are the spec's decision D16). -/
def Obligations.SpritePositionsGoToDistinctPixels : Prop :=
  ∀ (edge : DrawEdge) (x0 y0 col col' row row' p : Nat), x0 < 64 → y0 < 32 → col < 8 → col' < 8 → row < 15 → row' < 15 →
    place edge (x0 + col) (y0 + row) = .pixel p →
    p < 2048 ∧ (place edge (x0 + col') (y0 + row') = .pixel p → col = col' ∧ row = row')

/-! ## Timers and keypad -/

/-- SKP and SKNP (45_timers_keypad.md): the level of key V[x]; above 15 they fault, which is the spec's choice (D15). -/
def Obligations.SkipsOnKeys : Prop :=
  ∀ (x : Reg) (s : State),
    ((s.reg x).toNat ≤ 15 →
      (∃ t, exec (.skp x) s = .next t ∧ SameExcept { pc := true } s t ∧
        (s.key (s.reg x).toNat = true → t.pc.toNat = (s.pc.toNat + 2) % 65536) ∧
        (s.key (s.reg x).toNat = false → t.pc = s.pc)) ∧
      (∃ t, exec (.sknp x) s = .next t ∧ SameExcept { pc := true } s t ∧
        (s.key (s.reg x).toNat = false → t.pc.toNat = (s.pc.toNat + 2) % 65536) ∧
        (s.key (s.reg x).toNat = true → t.pc = s.pc))) ∧
    (15 < (s.reg x).toNat →
      exec (.skp x) s = .fault (.keyIndex (s.reg x)) ∧ exec (.sknp x) s = .fault (.keyIndex (s.reg x)))

/-- R223: LD Vx,K takes the lowest pressed key, or rolls PC back by 2; a Cycle that waits changes only the timers, which keep
counting down. -/
def Obligations.KeyWaitTakesTheLowestKey : Prop :=
  ∀ (x : Reg) (s : State),
    (∀ k < 16, s.key k = true → (∀ j < k, s.key j = false) →
      ∃ t, exec (.ldVxK x) s = .next t ∧ (t.reg x).toNat = k ∧ SameExcept { regs := [x] } s t) ∧
    ((∀ k < 16, s.key k = false) →
      ∃ t, exec (.ldVxK x) s = .next t ∧ t.pc = s.pc - 2 ∧ SameExcept { pc := true } s t) ∧
    ((∀ k < 16, s.key k = false) → ∀ t, CycleOf (.ldVxK x) s t →
      t.dt.toNat = s.dt.toNat - 1 ∧ t.st.toNat = s.st.toNat - 1 ∧ SameExcept { dt := true, st := true } s t)

/-- LD Vx,DT, LD DT,Vx and LD ST,Vx (45_timers_keypad.md). Their semantics are marked general knowledge in the spec (R222,
R224, R225). -/
def Obligations.TimerMoves : Prop :=
  ∀ (x : Reg) (s : State),
    (∃ t, exec (.ldVxDt x) s = .next t ∧ t.reg x = s.dt ∧ SameExcept { regs := [x] } s t) ∧
    (∃ t, exec (.ldDtVx x) s = .next t ∧ t.dt = s.reg x ∧ SameExcept { dt := true } s t) ∧
    (∃ t, exec (.ldStVx x) s = .next t ∧ t.st = s.reg x ∧ SameExcept { st := true } s t)

/-! ## Runs -/

/-- A ROM above 3584 bytes is rejected (R60) and the run goes on as if nothing had been loaded: R257 leaves the state
unchanged, and that the run goes on is the model's choice (log entry 12). -/
def Obligations.RejectedLoadGoesOnFromTheResetState : Prop :=
  ∀ (c : Config) (rom : List Byte), 3584 < rom.length →
    loadRom rom (State.resetWith c) = none ∧ boot c (some rom) = State.resetWith c ∧
    ∀ (as : List Action) (t : State), FinalState c (some rom) as t ↔ FinalState c none as t

/-- R261: with legal parameters, whatever the Load (an accepted, a rejected or none), a run is in a legal state after
every finite sequence of host actions, and it has a final state, the one after the last action, exactly when no fault is
recorded there. What a run and its final state are is the spec's decision (D33), and that a rejected Load ends no run is
the model's choice (log entry 12). -/
def Obligations.EveryRunEndsInALegalState : Prop :=
  (∀ (as : List Action) (s : State), s.Inv → ∃ t, runActions as s = .next t ∧ t.Inv) ∧
  (∀ (c : Config) (rom : Option (List Byte)) (as : List Action), c.legal →
    ∃ t, runActions as (boot c rom) = .next t ∧ t.Inv ∧ ∀ u, FinalState c rom as u ↔ u = t ∧ t.fault = none)
end

