-- ==== Sys2Proof/Laws/State.lean ====
section
/-! SUPPORT. What each update does to each field of State: one lemma per field per update, true by rfl. -/

namespace Sys2Proof.Machine

variable (s : State)

/-! ### setReg -/

@[simp] theorem State.setReg_v (x : Reg) (b : Byte) : (s.setReg x b).v = s.v.set x b := rfl
@[simp] theorem State.setReg_i (x : Reg) (b : Byte) : (s.setReg x b).i = s.i := rfl
@[simp] theorem State.setReg_pc (x : Reg) (b : Byte) : (s.setReg x b).pc = s.pc := rfl
@[simp] theorem State.setReg_sp (x : Reg) (b : Byte) : (s.setReg x b).sp = s.sp := rfl
@[simp] theorem State.setReg_stack (x : Reg) (b : Byte) : (s.setReg x b).stack = s.stack := rfl
@[simp] theorem State.setReg_dt (x : Reg) (b : Byte) : (s.setReg x b).dt = s.dt := rfl
@[simp] theorem State.setReg_st (x : Reg) (b : Byte) : (s.setReg x b).st = s.st := rfl
@[simp] theorem State.setReg_fb (x : Reg) (b : Byte) : (s.setReg x b).fb = s.fb := rfl
@[simp] theorem State.setReg_keys (x : Reg) (b : Byte) : (s.setReg x b).keys = s.keys := rfl
@[simp] theorem State.setReg_mem (x : Reg) (b : Byte) : (s.setReg x b).mem = s.mem := rfl
@[simp] theorem State.setReg_fault (x : Reg) (b : Byte) : (s.setReg x b).fault = s.fault := rfl
@[simp] theorem State.setReg_draws (x : Reg) (b : Byte) : (s.setReg x b).draws = s.draws := rfl
@[simp] theorem State.setReg_config (x : Reg) (b : Byte) : (s.setReg x b).config = s.config := rfl

/-! ### setI -/

@[simp] theorem State.setI_v (w : Word) : (s.setI w).v = s.v := rfl
@[simp] theorem State.setI_i (w : Word) : (s.setI w).i = w := rfl
@[simp] theorem State.setI_pc (w : Word) : (s.setI w).pc = s.pc := rfl
@[simp] theorem State.setI_sp (w : Word) : (s.setI w).sp = s.sp := rfl
@[simp] theorem State.setI_stack (w : Word) : (s.setI w).stack = s.stack := rfl
@[simp] theorem State.setI_dt (w : Word) : (s.setI w).dt = s.dt := rfl
@[simp] theorem State.setI_st (w : Word) : (s.setI w).st = s.st := rfl
@[simp] theorem State.setI_fb (w : Word) : (s.setI w).fb = s.fb := rfl
@[simp] theorem State.setI_keys (w : Word) : (s.setI w).keys = s.keys := rfl
@[simp] theorem State.setI_mem (w : Word) : (s.setI w).mem = s.mem := rfl
@[simp] theorem State.setI_fault (w : Word) : (s.setI w).fault = s.fault := rfl
@[simp] theorem State.setI_draws (w : Word) : (s.setI w).draws = s.draws := rfl
@[simp] theorem State.setI_config (w : Word) : (s.setI w).config = s.config := rfl

/-! ### setPc -/

@[simp] theorem State.setPc_v (w : Word) : (s.setPc w).v = s.v := rfl
@[simp] theorem State.setPc_i (w : Word) : (s.setPc w).i = s.i := rfl
@[simp] theorem State.setPc_pc (w : Word) : (s.setPc w).pc = w := rfl
@[simp] theorem State.setPc_sp (w : Word) : (s.setPc w).sp = s.sp := rfl
@[simp] theorem State.setPc_stack (w : Word) : (s.setPc w).stack = s.stack := rfl
@[simp] theorem State.setPc_dt (w : Word) : (s.setPc w).dt = s.dt := rfl
@[simp] theorem State.setPc_st (w : Word) : (s.setPc w).st = s.st := rfl
@[simp] theorem State.setPc_fb (w : Word) : (s.setPc w).fb = s.fb := rfl
@[simp] theorem State.setPc_keys (w : Word) : (s.setPc w).keys = s.keys := rfl
@[simp] theorem State.setPc_mem (w : Word) : (s.setPc w).mem = s.mem := rfl
@[simp] theorem State.setPc_fault (w : Word) : (s.setPc w).fault = s.fault := rfl
@[simp] theorem State.setPc_draws (w : Word) : (s.setPc w).draws = s.draws := rfl
@[simp] theorem State.setPc_config (w : Word) : (s.setPc w).config = s.config := rfl

/-! ### setDt -/

@[simp] theorem State.setDt_v (b : Byte) : (s.setDt b).v = s.v := rfl
@[simp] theorem State.setDt_i (b : Byte) : (s.setDt b).i = s.i := rfl
@[simp] theorem State.setDt_pc (b : Byte) : (s.setDt b).pc = s.pc := rfl
@[simp] theorem State.setDt_sp (b : Byte) : (s.setDt b).sp = s.sp := rfl
@[simp] theorem State.setDt_stack (b : Byte) : (s.setDt b).stack = s.stack := rfl
@[simp] theorem State.setDt_dt (b : Byte) : (s.setDt b).dt = b := rfl
@[simp] theorem State.setDt_st (b : Byte) : (s.setDt b).st = s.st := rfl
@[simp] theorem State.setDt_fb (b : Byte) : (s.setDt b).fb = s.fb := rfl
@[simp] theorem State.setDt_keys (b : Byte) : (s.setDt b).keys = s.keys := rfl
@[simp] theorem State.setDt_mem (b : Byte) : (s.setDt b).mem = s.mem := rfl
@[simp] theorem State.setDt_fault (b : Byte) : (s.setDt b).fault = s.fault := rfl
@[simp] theorem State.setDt_draws (b : Byte) : (s.setDt b).draws = s.draws := rfl
@[simp] theorem State.setDt_config (b : Byte) : (s.setDt b).config = s.config := rfl

/-! ### setSt -/

@[simp] theorem State.setSt_v (b : Byte) : (s.setSt b).v = s.v := rfl
@[simp] theorem State.setSt_i (b : Byte) : (s.setSt b).i = s.i := rfl
@[simp] theorem State.setSt_pc (b : Byte) : (s.setSt b).pc = s.pc := rfl
@[simp] theorem State.setSt_sp (b : Byte) : (s.setSt b).sp = s.sp := rfl
@[simp] theorem State.setSt_stack (b : Byte) : (s.setSt b).stack = s.stack := rfl
@[simp] theorem State.setSt_dt (b : Byte) : (s.setSt b).dt = s.dt := rfl
@[simp] theorem State.setSt_st (b : Byte) : (s.setSt b).st = b := rfl
@[simp] theorem State.setSt_fb (b : Byte) : (s.setSt b).fb = s.fb := rfl
@[simp] theorem State.setSt_keys (b : Byte) : (s.setSt b).keys = s.keys := rfl
@[simp] theorem State.setSt_mem (b : Byte) : (s.setSt b).mem = s.mem := rfl
@[simp] theorem State.setSt_fault (b : Byte) : (s.setSt b).fault = s.fault := rfl
@[simp] theorem State.setSt_draws (b : Byte) : (s.setSt b).draws = s.draws := rfl
@[simp] theorem State.setSt_config (b : Byte) : (s.setSt b).config = s.config := rfl

/-! ### setFb -/

@[simp] theorem State.setFb_v (f : Framebuffer) : (s.setFb f).v = s.v := rfl
@[simp] theorem State.setFb_i (f : Framebuffer) : (s.setFb f).i = s.i := rfl
@[simp] theorem State.setFb_pc (f : Framebuffer) : (s.setFb f).pc = s.pc := rfl
@[simp] theorem State.setFb_sp (f : Framebuffer) : (s.setFb f).sp = s.sp := rfl
@[simp] theorem State.setFb_stack (f : Framebuffer) : (s.setFb f).stack = s.stack := rfl
@[simp] theorem State.setFb_dt (f : Framebuffer) : (s.setFb f).dt = s.dt := rfl
@[simp] theorem State.setFb_st (f : Framebuffer) : (s.setFb f).st = s.st := rfl
@[simp] theorem State.setFb_fb (f : Framebuffer) : (s.setFb f).fb = f := rfl
@[simp] theorem State.setFb_keys (f : Framebuffer) : (s.setFb f).keys = s.keys := rfl
@[simp] theorem State.setFb_mem (f : Framebuffer) : (s.setFb f).mem = s.mem := rfl
@[simp] theorem State.setFb_fault (f : Framebuffer) : (s.setFb f).fault = s.fault := rfl
@[simp] theorem State.setFb_draws (f : Framebuffer) : (s.setFb f).draws = s.draws := rfl
@[simp] theorem State.setFb_config (f : Framebuffer) : (s.setFb f).config = s.config := rfl

/-! ### countDraw -/

@[simp] theorem State.countDraw_v : (s.countDraw).v = s.v := rfl
@[simp] theorem State.countDraw_i : (s.countDraw).i = s.i := rfl
@[simp] theorem State.countDraw_pc : (s.countDraw).pc = s.pc := rfl
@[simp] theorem State.countDraw_sp : (s.countDraw).sp = s.sp := rfl
@[simp] theorem State.countDraw_stack : (s.countDraw).stack = s.stack := rfl
@[simp] theorem State.countDraw_dt : (s.countDraw).dt = s.dt := rfl
@[simp] theorem State.countDraw_st : (s.countDraw).st = s.st := rfl
@[simp] theorem State.countDraw_fb : (s.countDraw).fb = s.fb := rfl
@[simp] theorem State.countDraw_keys : (s.countDraw).keys = s.keys := rfl
@[simp] theorem State.countDraw_mem : (s.countDraw).mem = s.mem := rfl
@[simp] theorem State.countDraw_fault : (s.countDraw).fault = s.fault := rfl
@[simp] theorem State.countDraw_draws : (s.countDraw).draws = s.draws + 1 := rfl
@[simp] theorem State.countDraw_config : (s.countDraw).config = s.config := rfl

/-! ### push -/

@[simp] theorem State.push_v (h : s.sp.toNat < 16) (w : Word) : (s.push h w).v = s.v := rfl
@[simp] theorem State.push_i (h : s.sp.toNat < 16) (w : Word) : (s.push h w).i = s.i := rfl
@[simp] theorem State.push_pc (h : s.sp.toNat < 16) (w : Word) : (s.push h w).pc = s.pc := rfl
@[simp] theorem State.push_sp (h : s.sp.toNat < 16) (w : Word) : (s.push h w).sp = s.sp + 1 := rfl
@[simp] theorem State.push_stack (h : s.sp.toNat < 16) (w : Word) :
    (s.push h w).stack = s.stack.set s.sp.toNat w := rfl
@[simp] theorem State.push_dt (h : s.sp.toNat < 16) (w : Word) : (s.push h w).dt = s.dt := rfl
@[simp] theorem State.push_st (h : s.sp.toNat < 16) (w : Word) : (s.push h w).st = s.st := rfl
@[simp] theorem State.push_fb (h : s.sp.toNat < 16) (w : Word) : (s.push h w).fb = s.fb := rfl
@[simp] theorem State.push_keys (h : s.sp.toNat < 16) (w : Word) : (s.push h w).keys = s.keys := rfl
@[simp] theorem State.push_mem (h : s.sp.toNat < 16) (w : Word) : (s.push h w).mem = s.mem := rfl
@[simp] theorem State.push_fault (h : s.sp.toNat < 16) (w : Word) : (s.push h w).fault = s.fault := rfl
@[simp] theorem State.push_draws (h : s.sp.toNat < 16) (w : Word) : (s.push h w).draws = s.draws := rfl
@[simp] theorem State.push_config (h : s.sp.toNat < 16) (w : Word) : (s.push h w).config = s.config := rfl

/-! ### pop -/

@[simp] theorem State.pop_v (h : (s.sp - 1).toNat < 16) : (s.pop h).v = s.v := rfl
@[simp] theorem State.pop_i (h : (s.sp - 1).toNat < 16) : (s.pop h).i = s.i := rfl
@[simp] theorem State.pop_pc (h : (s.sp - 1).toNat < 16) : (s.pop h).pc = s.stack[(s.sp - 1).toNat] := rfl
@[simp] theorem State.pop_sp (h : (s.sp - 1).toNat < 16) : (s.pop h).sp = s.sp - 1 := rfl
@[simp] theorem State.pop_stack (h : (s.sp - 1).toNat < 16) : (s.pop h).stack = s.stack := rfl
@[simp] theorem State.pop_dt (h : (s.sp - 1).toNat < 16) : (s.pop h).dt = s.dt := rfl
@[simp] theorem State.pop_st (h : (s.sp - 1).toNat < 16) : (s.pop h).st = s.st := rfl
@[simp] theorem State.pop_fb (h : (s.sp - 1).toNat < 16) : (s.pop h).fb = s.fb := rfl
@[simp] theorem State.pop_keys (h : (s.sp - 1).toNat < 16) : (s.pop h).keys = s.keys := rfl
@[simp] theorem State.pop_mem (h : (s.sp - 1).toNat < 16) : (s.pop h).mem = s.mem := rfl
@[simp] theorem State.pop_fault (h : (s.sp - 1).toNat < 16) : (s.pop h).fault = s.fault := rfl
@[simp] theorem State.pop_draws (h : (s.sp - 1).toNat < 16) : (s.pop h).draws = s.draws := rfl
@[simp] theorem State.pop_config (h : (s.sp - 1).toNat < 16) : (s.pop h).config = s.config := rfl

/-! ### recordFault -/

@[simp] theorem recordFault_v (f : Fault) (op : Option Word) : (recordFault f op s).v = s.v := rfl
@[simp] theorem recordFault_i (f : Fault) (op : Option Word) : (recordFault f op s).i = s.i := rfl
@[simp] theorem recordFault_pc (f : Fault) (op : Option Word) : (recordFault f op s).pc = s.pc := rfl
@[simp] theorem recordFault_sp (f : Fault) (op : Option Word) : (recordFault f op s).sp = s.sp := rfl
@[simp] theorem recordFault_stack (f : Fault) (op : Option Word) : (recordFault f op s).stack = s.stack := rfl
@[simp] theorem recordFault_dt (f : Fault) (op : Option Word) : (recordFault f op s).dt = s.dt := rfl
@[simp] theorem recordFault_st (f : Fault) (op : Option Word) : (recordFault f op s).st = s.st := rfl
@[simp] theorem recordFault_fb (f : Fault) (op : Option Word) : (recordFault f op s).fb = s.fb := rfl
@[simp] theorem recordFault_keys (f : Fault) (op : Option Word) : (recordFault f op s).keys = s.keys := rfl
@[simp] theorem recordFault_mem (f : Fault) (op : Option Word) : (recordFault f op s).mem = s.mem := rfl
@[simp] theorem recordFault_fault (f : Fault) (op : Option Word) :
    (recordFault f op s).fault = some ⟨f, s.pc, op⟩ := rfl
@[simp] theorem recordFault_draws (f : Fault) (op : Option Word) : (recordFault f op s).draws = s.draws := rfl
@[simp] theorem recordFault_config (f : Fault) (op : Option Word) : (recordFault f op s).config = s.config := rfl

/-! ### setKeys -/

@[simp] theorem setKeys_v (k : BitVec 16) : (setKeys k s).v = s.v := rfl
@[simp] theorem setKeys_i (k : BitVec 16) : (setKeys k s).i = s.i := rfl
@[simp] theorem setKeys_pc (k : BitVec 16) : (setKeys k s).pc = s.pc := rfl
@[simp] theorem setKeys_sp (k : BitVec 16) : (setKeys k s).sp = s.sp := rfl
@[simp] theorem setKeys_stack (k : BitVec 16) : (setKeys k s).stack = s.stack := rfl
@[simp] theorem setKeys_dt (k : BitVec 16) : (setKeys k s).dt = s.dt := rfl
@[simp] theorem setKeys_st (k : BitVec 16) : (setKeys k s).st = s.st := rfl
@[simp] theorem setKeys_fb (k : BitVec 16) : (setKeys k s).fb = s.fb := rfl
@[simp] theorem setKeys_keys (k : BitVec 16) : (setKeys k s).keys = k := rfl
@[simp] theorem setKeys_mem (k : BitVec 16) : (setKeys k s).mem = s.mem := rfl
@[simp] theorem setKeys_fault (k : BitVec 16) : (setKeys k s).fault = s.fault := rfl
@[simp] theorem setKeys_draws (k : BitVec 16) : (setKeys k s).draws = s.draws := rfl
@[simp] theorem setKeys_config (k : BitVec 16) : (setKeys k s).config = s.config := rfl

/-! ### preIncrement -/

@[simp] theorem preIncrement_v : (preIncrement s).v = s.v := rfl
@[simp] theorem preIncrement_i : (preIncrement s).i = s.i := rfl
@[simp] theorem preIncrement_pc : (preIncrement s).pc = s.pc + 2 := rfl
@[simp] theorem preIncrement_sp : (preIncrement s).sp = s.sp := rfl
@[simp] theorem preIncrement_stack : (preIncrement s).stack = s.stack := rfl
@[simp] theorem preIncrement_dt : (preIncrement s).dt = s.dt := rfl
@[simp] theorem preIncrement_st : (preIncrement s).st = s.st := rfl
@[simp] theorem preIncrement_fb : (preIncrement s).fb = s.fb := rfl
@[simp] theorem preIncrement_keys : (preIncrement s).keys = s.keys := rfl
@[simp] theorem preIncrement_mem : (preIncrement s).mem = s.mem := rfl
@[simp] theorem preIncrement_fault : (preIncrement s).fault = s.fault := rfl
@[simp] theorem preIncrement_draws : (preIncrement s).draws = s.draws := rfl
@[simp] theorem preIncrement_config : (preIncrement s).config = s.config := rfl

/-! ### timerPostStep -/

@[simp] theorem timerPostStep_v : (timerPostStep s).v = s.v := rfl
@[simp] theorem timerPostStep_i : (timerPostStep s).i = s.i := rfl
@[simp] theorem timerPostStep_pc : (timerPostStep s).pc = s.pc := rfl
@[simp] theorem timerPostStep_sp : (timerPostStep s).sp = s.sp := rfl
@[simp] theorem timerPostStep_stack : (timerPostStep s).stack = s.stack := rfl
@[simp] theorem timerPostStep_dt : (timerPostStep s).dt = countDown s.dt := rfl
@[simp] theorem timerPostStep_st : (timerPostStep s).st = countDown s.st := rfl
@[simp] theorem timerPostStep_fb : (timerPostStep s).fb = s.fb := rfl
@[simp] theorem timerPostStep_keys : (timerPostStep s).keys = s.keys := rfl
@[simp] theorem timerPostStep_mem : (timerPostStep s).mem = s.mem := rfl
@[simp] theorem timerPostStep_fault : (timerPostStep s).fault = s.fault := rfl
@[simp] theorem timerPostStep_draws : (timerPostStep s).draws = s.draws := rfl
@[simp] theorem timerPostStep_config : (timerPostStep s).config = s.config := rfl

/-! ### Reading a register or a byte of memory after an update -/

theorem State.reg_eq (x : Reg) : s.reg x = s.v[x.val] := rfl

@[simp] theorem State.reg_setReg_self (x : Reg) (b : Byte) : (s.setReg x b).reg x = b := by
  simp [State.reg_eq]

@[simp] theorem State.reg_setReg_ne (x y : Reg) (b : Byte) (h : y ≠ x) : (s.setReg x b).reg y = s.reg y := by
  have hne : x.val ≠ y.val := fun e => h (Fin.ext e.symm)
  simp [State.reg_eq, Vector.getElem_set_ne _ _ hne]

theorem State.reg_setReg (x y : Reg) (b : Byte) : (s.setReg x b).reg y = if y = x then b else s.reg y := by
  by_cases h : y = x
  · subst h; simp
  · simp [h]

@[simp] theorem State.reg_setI (w : Word) (y : Reg) : (s.setI w).reg y = s.reg y := rfl
@[simp] theorem State.reg_setPc (w : Word) (y : Reg) : (s.setPc w).reg y = s.reg y := rfl
@[simp] theorem State.reg_setDt (b : Byte) (y : Reg) : (s.setDt b).reg y = s.reg y := rfl
@[simp] theorem State.reg_setSt (b : Byte) (y : Reg) : (s.setSt b).reg y = s.reg y := rfl
@[simp] theorem State.reg_setFb (f : Framebuffer) (y : Reg) : (s.setFb f).reg y = s.reg y := rfl
@[simp] theorem State.reg_countDraw (y : Reg) : (s.countDraw).reg y = s.reg y := rfl
@[simp] theorem State.reg_push (h : s.sp.toNat < 16) (w : Word) (y : Reg) : (s.push h w).reg y = s.reg y := rfl
@[simp] theorem State.reg_pop (h : (s.sp - 1).toNat < 16) (y : Reg) : (s.pop h).reg y = s.reg y := rfl
@[simp] theorem State.peek_setReg (x : Reg) (b : Byte) (a : Nat) : (s.setReg x b).peek a = s.peek a := rfl
@[simp] theorem State.peek_setI (w : Word) (a : Nat) : (s.setI w).peek a = s.peek a := rfl
@[simp] theorem State.peek_setPc (w : Word) (a : Nat) : (s.setPc w).peek a = s.peek a := rfl
@[simp] theorem State.peek_setDt (b : Byte) (a : Nat) : (s.setDt b).peek a = s.peek a := rfl
@[simp] theorem State.peek_setSt (b : Byte) (a : Nat) : (s.setSt b).peek a = s.peek a := rfl
@[simp] theorem State.peek_setFb (f : Framebuffer) (a : Nat) : (s.setFb f).peek a = s.peek a := rfl
@[simp] theorem State.peek_countDraw (a : Nat) : (s.countDraw).peek a = s.peek a := rfl
@[simp] theorem State.peek_push (h : s.sp.toNat < 16) (w : Word) (a : Nat) : (s.push h w).peek a = s.peek a := rfl
@[simp] theorem State.peek_pop (h : (s.sp - 1).toNat < 16) (a : Nat) : (s.pop h).peek a = s.peek a := rfl
@[simp] theorem reg_recordFault (f : Fault) (op : Option Word) (y : Reg) : (recordFault f op s).reg y = s.reg y := rfl
@[simp] theorem peek_recordFault (f : Fault) (op : Option Word) (a : Nat) :
    (recordFault f op s).peek a = s.peek a := rfl
@[simp] theorem reg_setKeys (k : BitVec 16) (y : Reg) : (setKeys k s).reg y = s.reg y := rfl
@[simp] theorem peek_setKeys (k : BitVec 16) (a : Nat) : (setKeys k s).peek a = s.peek a := rfl
@[simp] theorem reg_preIncrement (y : Reg) : (preIncrement s).reg y = s.reg y := rfl
@[simp] theorem peek_preIncrement (a : Nat) : (preIncrement s).peek a = s.peek a := rfl
@[simp] theorem reg_timerPostStep (y : Reg) : (timerPostStep s).reg y = s.reg y := rfl
@[simp] theorem peek_timerPostStep (a : Nat) : (timerPostStep s).peek a = s.peek a := rfl

end Sys2Proof.Machine
end

