-- ==== Sys2Proof/Laws/Memory.lean ====
section
/-! SUPPORT. Memory as a list of cells: a read after a write, and the canonical form, which every memory operation
keeps (20_memory.md R50, R61). -/

namespace Sys2Proof.Machine

/-! ### Lists of cells -/

theorem findCell_putCell (m : List Host.Cell) (a : Nat) (v : Byte) (b : Nat) :
    findCell (putCell m a v) b = if a = b then some v else findCell m b := by
  induction m with
  | nil => simp [putCell, findCell]
  | cons p m ih =>
    obtain ⟨k, w⟩ := p
    simp only [putCell]
    split
    · simp [findCell]
    · split
      · next h => subst h; by_cases hab : a = b <;> simp [findCell, hab]
      · next h1 h2 =>
        simp only [findCell, ih]
        by_cases hk : k = b
        · have : a ≠ b := fun e => h2 (e.trans hk.symm)
          simp [hk, this]
        · simp [hk]

theorem findCell_dropCell (m : List Host.Cell) (a b : Nat) :
    findCell (dropCell m a) b = if a = b then none else findCell m b := by
  induction m with
  | nil => simp [dropCell, findCell]
  | cons p m ih =>
    obtain ⟨k, w⟩ := p
    simp only [dropCell]
    split
    · next h =>
      subst h
      simp only [ih, findCell]
      by_cases hb : k = b <;> simp [hb]
    · next h =>
      simp only [findCell, ih]
      by_cases hk : k = b
      · have : a ≠ b := fun e => h (hk.trans e.symm)
        simp [hk, this]
      · simp [hk]

theorem mem_putCell {m : List Host.Cell} {a : Nat} {v : Byte} {p : Host.Cell} (h : p ∈ putCell m a v) :
    p = (a, v) ∨ p ∈ m := by
  induction m with
  | nil => simpa [putCell] using h
  | cons q m ih =>
    obtain ⟨k, w⟩ := q
    simp only [putCell] at h
    split at h
    · simpa using h
    · split at h
      · rcases List.mem_cons.1 h with h | h
        · exact .inl h
        · exact .inr (List.mem_cons_of_mem _ h)
      · rcases List.mem_cons.1 h with h | h
        · exact .inr (by simp [h])
        · rcases ih h with h | h
          · exact .inl h
          · exact .inr (List.mem_cons_of_mem _ h)

theorem mem_dropCell {m : List Host.Cell} {a : Nat} {p : Host.Cell} (h : p ∈ dropCell m a) : p ∈ m := by
  induction m with
  | nil => simp [dropCell] at h
  | cons q m ih =>
    obtain ⟨k, w⟩ := q
    simp only [dropCell] at h
    split at h
    · exact List.mem_cons_of_mem _ (ih h)
    · rcases List.mem_cons.1 h with h | h
      · simp [h]
      · exact List.mem_cons_of_mem _ (ih h)

theorem putCell_rising {m : List Host.Cell} (a : Nat) (v : Byte)
    (h : m.Pairwise (fun p q => p.1 < q.1)) : (putCell m a v).Pairwise (fun p q => p.1 < q.1) := by
  induction m with
  | nil => simp [putCell]
  | cons q m ih =>
    obtain ⟨k, w⟩ := q
    obtain ⟨hk, hm⟩ := List.pairwise_cons.1 h
    simp only [putCell]
    split
    · next hlt =>
      refine List.pairwise_cons.2 ⟨fun p hp => ?_, h⟩
      rcases List.mem_cons.1 hp with hp | hp
      · subst hp; exact hlt
      · exact Nat.lt_trans hlt (hk p hp)
    · split
      · next heq => subst heq; exact List.pairwise_cons.2 ⟨hk, hm⟩
      · next h1 h2 =>
        refine List.pairwise_cons.2 ⟨fun p hp => ?_, ih hm⟩
        rcases mem_putCell hp with hp | hp
        · subst hp; simp only; omega
        · exact hk p hp

theorem dropCell_rising {m : List Host.Cell} (a : Nat)
    (h : m.Pairwise (fun p q => p.1 < q.1)) : (dropCell m a).Pairwise (fun p q => p.1 < q.1) := by
  induction m with
  | nil => simp [dropCell]
  | cons q m ih =>
    obtain ⟨k, w⟩ := q
    obtain ⟨hk, hm⟩ := List.pairwise_cons.1 h
    simp only [dropCell]
    split
    · exact ih hm
    · exact List.pairwise_cons.2 ⟨fun p hp => hk p (mem_dropCell hp), ih hm⟩

/-! ### Reads and writes -/

/-- A read after a write gives the value written, and every other address reads as before. -/
theorem readCell_writeCell (c : Config) (m : List Host.Cell) (a : Nat) (v : Byte) (b : Nat) :
    readCell c (writeCell c m a v) b = if a = b then v else readCell c m b := by
  unfold readCell writeCell
  split
  · next h =>
    rw [findCell_dropCell]
    by_cases hab : a = b
    · subst hab; simp [h]
    · simp [hab]
  · rw [findCell_putCell]
    by_cases hab : a = b <;> simp [hab]

/-- A write to an existing address keeps the canonical form. -/
theorem writeCell_wf {c : Config} {m : List Host.Cell} {a : Nat} (v : Byte) (ha : a ≤ 0xFFF)
    (h : Memory.wf c m) : Memory.wf c (writeCell c m a v) := by
  unfold writeCell
  split
  · exact ⟨dropCell_rising a h.1, fun p hp => h.2 p (mem_dropCell hp)⟩
  · next hv =>
    refine ⟨putCell_rising a v h.1, fun p hp => ?_⟩
    rcases mem_putCell hp with hp | hp
    · subst hp; exact ⟨ha, hv⟩
    · exact h.2 p hp

/-! ### poke -/

variable (s : State) (a : Nat) (b : Byte)

theorem State.poke_cases :
    (a ≤ 0xFFF ∧ s.poke a b = { s with mem := writeCell s.config s.mem a b }) ∨ (0xFFF < a ∧ s.poke a b = s) := by
  unfold State.poke
  split
  · exact .inl ⟨by assumption, rfl⟩
  · exact .inr ⟨by omega, rfl⟩

@[simp] theorem State.poke_v : (s.poke a b).v = s.v := by
  rcases State.poke_cases s a b with ⟨_, e⟩ | ⟨_, e⟩ <;> rw [e]

@[simp] theorem State.poke_i : (s.poke a b).i = s.i := by
  rcases State.poke_cases s a b with ⟨_, e⟩ | ⟨_, e⟩ <;> rw [e]

@[simp] theorem State.poke_pc : (s.poke a b).pc = s.pc := by
  rcases State.poke_cases s a b with ⟨_, e⟩ | ⟨_, e⟩ <;> rw [e]

@[simp] theorem State.poke_sp : (s.poke a b).sp = s.sp := by
  rcases State.poke_cases s a b with ⟨_, e⟩ | ⟨_, e⟩ <;> rw [e]

@[simp] theorem State.poke_stack : (s.poke a b).stack = s.stack := by
  rcases State.poke_cases s a b with ⟨_, e⟩ | ⟨_, e⟩ <;> rw [e]

@[simp] theorem State.poke_dt : (s.poke a b).dt = s.dt := by
  rcases State.poke_cases s a b with ⟨_, e⟩ | ⟨_, e⟩ <;> rw [e]

@[simp] theorem State.poke_st : (s.poke a b).st = s.st := by
  rcases State.poke_cases s a b with ⟨_, e⟩ | ⟨_, e⟩ <;> rw [e]

@[simp] theorem State.poke_fb : (s.poke a b).fb = s.fb := by
  rcases State.poke_cases s a b with ⟨_, e⟩ | ⟨_, e⟩ <;> rw [e]

@[simp] theorem State.poke_keys : (s.poke a b).keys = s.keys := by
  rcases State.poke_cases s a b with ⟨_, e⟩ | ⟨_, e⟩ <;> rw [e]

@[simp] theorem State.poke_fault : (s.poke a b).fault = s.fault := by
  rcases State.poke_cases s a b with ⟨_, e⟩ | ⟨_, e⟩ <;> rw [e]

@[simp] theorem State.poke_draws : (s.poke a b).draws = s.draws := by
  rcases State.poke_cases s a b with ⟨_, e⟩ | ⟨_, e⟩ <;> rw [e]

@[simp] theorem State.poke_config : (s.poke a b).config = s.config := by
  rcases State.poke_cases s a b with ⟨_, e⟩ | ⟨_, e⟩ <;> rw [e]

@[simp] theorem State.reg_poke (x : Reg) : (s.poke a b).reg x = s.reg x := by simp [State.reg]

theorem State.peek_poke (k : Nat) :
    (s.poke a b).peek k = if a ≤ 0xFFF ∧ a = k then b else s.peek k := by
  rcases State.poke_cases s a b with ⟨h, e⟩ | ⟨h, e⟩
  · simp [e, State.peek, readCell_writeCell, h]
  · have : ¬ a ≤ 0xFFF := by omega
    simp [e, this]

/-- `poke` keeps memory canonical. -/
theorem State.poke_wf (h : Memory.wf s.config s.mem) :
    Memory.wf (s.poke a b).config (s.poke a b).mem := by
  rcases State.poke_cases s a b with ⟨ha, e⟩ | ⟨_, e⟩
  · rw [e]; exact writeCell_wf b ha h
  · rw [e]; exact h

end Sys2Proof.Machine
end

