-- ==== Sys2Proof/Laws/Ops.lean ====
section
/-! SUPPORT. Everything each shared operation over memory and registers can do, said once. -/

namespace Sys2Proof.Machine

/-! ### One byte -/

theorem memRead_eq_ok {s : State} {a : Nat} {b : Byte} :
    s.memRead a = .ok b ↔ a ≤ 0xFFF ∧ b = s.peek a := by
  unfold State.memRead
  split <;> simp_all [eq_comm]

theorem memRead_eq_error {s : State} {a : Nat} {f : Fault} :
    s.memRead a = .error f ↔ 0xFFF < a ∧ f = .memOob a := by
  unfold State.memRead
  split <;> simp_all [eq_comm]

theorem memWrite_eq_ok {s t : State} {a : Nat} {v : Byte} :
    s.memWrite a v = .ok t ↔ a ≤ 0xFFF ∧ t = s.poke a v := by
  unfold State.memWrite
  split <;> simp_all [eq_comm]

theorem memWrite_eq_error {s : State} {a : Nat} {v : Byte} {f : Fault} :
    s.memWrite a v = .error f ↔ 0xFFF < a ∧ f = .memOob a := by
  unfold State.memWrite
  split <;> simp_all [eq_comm]

/-! ### Several bytes -/

/-- A store of consecutive bytes either stores them all or faults at the first address out of range. -/
theorem memWriteAll_eq (bs : List Byte) (a : Nat) (s : State) :
    memWriteAll a bs s =
      if bs = [] ∨ a + bs.length ≤ 0x1000 then .ok (pokeAll a bs s) else .error (.memOob (max a 0x1000)) := by
  induction bs generalizing a s with
  | nil => simp [memWriteAll, pokeAll]
  | cons b bs ih =>
    by_cases ha : a ≤ 0xFFF
    · have hw : s.memWrite a b = .ok (s.poke a b) := memWrite_eq_ok.2 ⟨ha, rfl⟩
      simp only [memWriteAll, hw, ih, pokeAll, List.length_cons, reduceCtorEq, false_or]
      by_cases hb : bs = []
      · subst hb
        simp
        omega
      · have hl : 0 < bs.length := List.length_pos_iff.2 hb
        simp only [hb, false_or]
        by_cases hlen : a + 1 + bs.length ≤ 0x1000
        · rw [if_pos hlen, if_pos (by omega)]
        · rw [if_neg hlen, if_neg (by omega)]
          congr 2
          omega
    · have hw : s.memWrite a b = .error (.memOob a) := memWrite_eq_error.2 ⟨by omega, rfl⟩
      simp only [memWriteAll, hw, List.length_cons, reduceCtorEq, false_or]
      rw [if_neg (by omega)]
      congr 2
      omega

/-- A read of consecutive bytes either reads them all or faults at the first address out of range. -/
theorem memReadAll_eq (s : State) (n a : Nat) :
    memReadAll s a n =
      if n = 0 ∨ a + n ≤ 0x1000 then .ok ((List.range n).map (fun k => s.peek (a + k)))
      else .error (.memOob (max a 0x1000)) := by
  induction n generalizing a with
  | zero => simp [memReadAll]
  | succ n ih =>
    by_cases ha : a ≤ 0xFFF
    · have hr : s.memRead a = .ok (s.peek a) := memRead_eq_ok.2 ⟨ha, rfl⟩
      simp only [memReadAll, hr, ih]
      by_cases hn : n = 0 ∨ a + 1 + n ≤ 0x1000
      · rw [if_pos hn, if_pos (by omega)]
        simp only [List.range_succ_eq_map, List.map_cons, List.map_map, Nat.add_zero]
        congr 3
        funext k
        simp only [Function.comp_apply]
        congr 1
        omega
      · rw [if_neg hn, if_neg (by omega)]
        simp only
        congr 2
        omega
    · have hr : s.memRead a = .error (.memOob a) := memRead_eq_error.2 ⟨by omega, rfl⟩
      simp only [memReadAll, hr]
      rw [if_neg (by omega)]
      congr 2
      omega

@[simp] theorem pokeAll_v (bs : List Byte) (a : Nat) (s : State) : (pokeAll a bs s).v = s.v := by
  induction bs generalizing a s with
  | nil => rfl
  | cons b bs ih => simp [pokeAll, ih]

@[simp] theorem pokeAll_i (bs : List Byte) (a : Nat) (s : State) : (pokeAll a bs s).i = s.i := by
  induction bs generalizing a s with
  | nil => rfl
  | cons b bs ih => simp [pokeAll, ih]

@[simp] theorem pokeAll_pc (bs : List Byte) (a : Nat) (s : State) : (pokeAll a bs s).pc = s.pc := by
  induction bs generalizing a s with
  | nil => rfl
  | cons b bs ih => simp [pokeAll, ih]

@[simp] theorem pokeAll_sp (bs : List Byte) (a : Nat) (s : State) : (pokeAll a bs s).sp = s.sp := by
  induction bs generalizing a s with
  | nil => rfl
  | cons b bs ih => simp [pokeAll, ih]

@[simp] theorem pokeAll_stack (bs : List Byte) (a : Nat) (s : State) : (pokeAll a bs s).stack = s.stack := by
  induction bs generalizing a s with
  | nil => rfl
  | cons b bs ih => simp [pokeAll, ih]

@[simp] theorem pokeAll_dt (bs : List Byte) (a : Nat) (s : State) : (pokeAll a bs s).dt = s.dt := by
  induction bs generalizing a s with
  | nil => rfl
  | cons b bs ih => simp [pokeAll, ih]

@[simp] theorem pokeAll_st (bs : List Byte) (a : Nat) (s : State) : (pokeAll a bs s).st = s.st := by
  induction bs generalizing a s with
  | nil => rfl
  | cons b bs ih => simp [pokeAll, ih]

@[simp] theorem pokeAll_fb (bs : List Byte) (a : Nat) (s : State) : (pokeAll a bs s).fb = s.fb := by
  induction bs generalizing a s with
  | nil => rfl
  | cons b bs ih => simp [pokeAll, ih]

@[simp] theorem pokeAll_keys (bs : List Byte) (a : Nat) (s : State) : (pokeAll a bs s).keys = s.keys := by
  induction bs generalizing a s with
  | nil => rfl
  | cons b bs ih => simp [pokeAll, ih]

@[simp] theorem pokeAll_fault (bs : List Byte) (a : Nat) (s : State) : (pokeAll a bs s).fault = s.fault := by
  induction bs generalizing a s with
  | nil => rfl
  | cons b bs ih => simp [pokeAll, ih]

@[simp] theorem pokeAll_draws (bs : List Byte) (a : Nat) (s : State) : (pokeAll a bs s).draws = s.draws := by
  induction bs generalizing a s with
  | nil => rfl
  | cons b bs ih => simp [pokeAll, ih]

@[simp] theorem pokeAll_config (bs : List Byte) (a : Nat) (s : State) : (pokeAll a bs s).config = s.config := by
  induction bs generalizing a s with
  | nil => rfl
  | cons b bs ih => simp [pokeAll, ih]

@[simp] theorem reg_pokeAll (bs : List Byte) (a : Nat) (s : State) (x : Reg) :
    (pokeAll a bs s).reg x = s.reg x := by simp [State.reg]

/-- What memory reads as after bytes are stored from `a` upward. -/
theorem peek_pokeAll (bs : List Byte) (a : Nat) (s : State) (k : Nat) :
    (pokeAll a bs s).peek k =
      if h : a ≤ k ∧ k < a + bs.length ∧ k ≤ 0xFFF then bs[k - a]'(by omega) else s.peek k := by
  induction bs generalizing a s with
  | nil => simp [pokeAll]; omega
  | cons b bs ih =>
    simp only [pokeAll, ih, State.peek_poke, List.length_cons]
    by_cases hk : a = k
    · subst hk
      simp
    · by_cases h : a + 1 ≤ k ∧ k < a + 1 + bs.length ∧ k ≤ 0xFFF
      · rw [dif_pos h, dif_pos (by omega)]
        rw [List.getElem_cons, dif_neg (by omega)]
        congr 1
      · rw [dif_neg h, dif_neg (by omega), if_neg (by omega)]

/-- Storing bytes keeps memory canonical. -/
theorem pokeAll_wf (bs : List Byte) (a : Nat) (s : State) (h : Memory.wf s.config s.mem) :
    Memory.wf (pokeAll a bs s).config (pokeAll a bs s).mem := by
  induction bs generalizing a s with
  | nil => simpa [pokeAll] using h
  | cons b bs ih => exact ih _ _ (State.poke_wf s a b h)

/-! ### Several registers -/

@[simp] theorem setRegsFrom_i (bs : List Byte) (k : Nat) (s : State) :
    (State.setRegsFrom k bs s).i = s.i := by
  induction bs generalizing k s with
  | nil => rfl
  | cons b bs ih => simp only [State.setRegsFrom, ih]; split <;> rfl

@[simp] theorem setRegsFrom_pc (bs : List Byte) (k : Nat) (s : State) :
    (State.setRegsFrom k bs s).pc = s.pc := by
  induction bs generalizing k s with
  | nil => rfl
  | cons b bs ih => simp only [State.setRegsFrom, ih]; split <;> rfl

@[simp] theorem setRegsFrom_sp (bs : List Byte) (k : Nat) (s : State) :
    (State.setRegsFrom k bs s).sp = s.sp := by
  induction bs generalizing k s with
  | nil => rfl
  | cons b bs ih => simp only [State.setRegsFrom, ih]; split <;> rfl

@[simp] theorem setRegsFrom_stack (bs : List Byte) (k : Nat) (s : State) :
    (State.setRegsFrom k bs s).stack = s.stack := by
  induction bs generalizing k s with
  | nil => rfl
  | cons b bs ih => simp only [State.setRegsFrom, ih]; split <;> rfl

@[simp] theorem setRegsFrom_dt (bs : List Byte) (k : Nat) (s : State) :
    (State.setRegsFrom k bs s).dt = s.dt := by
  induction bs generalizing k s with
  | nil => rfl
  | cons b bs ih => simp only [State.setRegsFrom, ih]; split <;> rfl

@[simp] theorem setRegsFrom_st (bs : List Byte) (k : Nat) (s : State) :
    (State.setRegsFrom k bs s).st = s.st := by
  induction bs generalizing k s with
  | nil => rfl
  | cons b bs ih => simp only [State.setRegsFrom, ih]; split <;> rfl

@[simp] theorem setRegsFrom_fb (bs : List Byte) (k : Nat) (s : State) :
    (State.setRegsFrom k bs s).fb = s.fb := by
  induction bs generalizing k s with
  | nil => rfl
  | cons b bs ih => simp only [State.setRegsFrom, ih]; split <;> rfl

@[simp] theorem setRegsFrom_keys (bs : List Byte) (k : Nat) (s : State) :
    (State.setRegsFrom k bs s).keys = s.keys := by
  induction bs generalizing k s with
  | nil => rfl
  | cons b bs ih => simp only [State.setRegsFrom, ih]; split <;> rfl

@[simp] theorem setRegsFrom_mem (bs : List Byte) (k : Nat) (s : State) :
    (State.setRegsFrom k bs s).mem = s.mem := by
  induction bs generalizing k s with
  | nil => rfl
  | cons b bs ih => simp only [State.setRegsFrom, ih]; split <;> rfl

@[simp] theorem setRegsFrom_fault (bs : List Byte) (k : Nat) (s : State) :
    (State.setRegsFrom k bs s).fault = s.fault := by
  induction bs generalizing k s with
  | nil => rfl
  | cons b bs ih => simp only [State.setRegsFrom, ih]; split <;> rfl

@[simp] theorem setRegsFrom_draws (bs : List Byte) (k : Nat) (s : State) :
    (State.setRegsFrom k bs s).draws = s.draws := by
  induction bs generalizing k s with
  | nil => rfl
  | cons b bs ih => simp only [State.setRegsFrom, ih]; split <;> rfl

@[simp] theorem setRegsFrom_config (bs : List Byte) (k : Nat) (s : State) :
    (State.setRegsFrom k bs s).config = s.config := by
  induction bs generalizing k s with
  | nil => rfl
  | cons b bs ih => simp only [State.setRegsFrom, ih]; split <;> rfl

@[simp] theorem peek_setRegsFrom (bs : List Byte) (k : Nat) (s : State) (a : Nat) :
    (State.setRegsFrom k bs s).peek a = s.peek a := by simp [State.peek]

/-- The registers after consecutive bytes are loaded from Vk upward. -/
theorem reg_setRegsFrom (bs : List Byte) (k : Nat) (s : State) (y : Reg) :
    (State.setRegsFrom k bs s).reg y =
      if h : k ≤ y.val ∧ y.val < k + bs.length then bs[y.val - k]'(by omega) else s.reg y := by
  induction bs generalizing k s with
  | nil => simp [State.setRegsFrom]
  | cons b bs ih =>
    simp only [State.setRegsFrom, ih, List.length_cons]
    by_cases hk : k = y.val
    · subst hk
      simp
    · have hy : ∀ h : k < 16, y ≠ ⟨k, h⟩ := fun h e => hk (by simp [e])
      by_cases h : k + 1 ≤ y.val ∧ y.val < k + 1 + bs.length
      · rw [dif_pos h, dif_pos (by omega)]
        rw [List.getElem_cons, dif_neg (by omega)]
        congr 1
      · have h' : ¬ (k ≤ y.val ∧ y.val < k + (bs.length + 1)) := by omega
        rw [dif_neg h, dif_neg h']
        split
        · exact State.reg_setReg_ne _ _ _ _ (hy _)
        · rfl

theorem length_regsUpTo (s : State) (x : Reg) : (s.regsUpTo x).length = x.val + 1 := by
  have : x.val < 16 := x.isLt
  simp only [State.regsUpTo, List.length_take, Vector.length_toList]
  omega

theorem getElem_regsUpTo (s : State) (x : Reg) (k : Nat) (h : k < (s.regsUpTo x).length) :
    (s.regsUpTo x)[k] = s.reg ⟨k, by rw [length_regsUpTo] at h; omega⟩ := by
  simp [State.regsUpTo, State.reg_eq]

/-! ### How a meaning ends -/

theorem conclude_eq_next {r : Except Fault State} {t : State} : conclude r = .next t ↔ r = .ok t := by
  cases r <;> simp [conclude, raiseFault]

theorem conclude_eq_fault {r : Except Fault State} {f : Fault} : conclude r = .fault f ↔ r = .error f := by
  cases r <;> simp [conclude, raiseFault]

theorem conclude_ne_refused {r : Except Fault State} {e : Refusal} : conclude r ≠ .refused e := by
  cases r <;> simp [conclude, raiseFault]

end Sys2Proof.Machine
end

