-- ==== Sys2Proof/Laws/Flags.lean ====
section
/-! SUPPORT. What the ALU's results and flags are as numbers, what WriteResultAndFlag leaves in the registers
(42_alu.md R150, R151), and what a skip does. -/

namespace Sys2Proof.Machine

@[simp] theorem toNat_flagByte (b : Bool) : (flagByte b).toNat = b.toNat := by cases b <;> rfl

theorem toNat_addResult (a b : Byte) : (addResult a b).toNat = (a.toNat + b.toNat) % 256 := by
  simp [addResult]

theorem toNat_subResult (a b : Byte) : (subResult a b).toNat = (a.toNat + 256 - b.toNat) % 256 := by
  have ha := a.isLt
  have hb := b.isLt
  simp only [subResult, BitVec.toNat_ofInt]
  omega

theorem toNat_shrResult (a : Byte) : (shrResult a).toNat = a.toNat / 2 := by
  have ha := a.isLt
  simp only [shrResult, BitVec.toNat_ofNat]
  omega

theorem toNat_shlResult (a : Byte) : (shlResult a).toNat = a.toNat * 2 % 256 := by
  simp [shlResult]

/-- The bit shifted out on the right is the operand's remainder mod 2. -/
theorem toNat_shrFlag (a : Byte) : (shrFlag a).toNat = a.toNat % 2 := by
  simp only [shrFlag, BitVec.getLsbD, Nat.testBit_zero]
  rcases Nat.mod_two_eq_zero_or_one a.toNat with h | h <;> simp [h]

/-- The bit shifted out on the left is 1 exactly when the operand is at least 128. -/
theorem toNat_shlFlag (a : Byte) : (shlFlag a).toNat = a.toNat / 128 := by
  have ha := a.isLt
  simp only [shlFlag, BitVec.getLsbD, Nat.testBit_eq_decide_div_mod_eq]
  rcases Nat.lt_or_ge a.toNat 128 with h | h
  · have : a.toNat / 128 = 0 := by omega
    simp [this]
  · have : a.toNat / 128 = 1 := by omega
    simp [this]

/-! ### WriteResultAndFlag -/

variable (x : Reg) (res : Byte) (flag : Bool) (s : State)

/-- The two writes are writes of registers x and F only, in one order or the other. -/
theorem writeResultAndFlag_cases :
    (s.config.flagOrder = .flagThenDest ∧
      writeResultAndFlag x res flag s = (s.setReg 15 (flagByte flag)).setReg x res) ∨
    (s.config.flagOrder = .destThenFlag ∧
      writeResultAndFlag x res flag s = (s.setReg x res).setReg 15 (flagByte flag)) := by
  unfold writeResultAndFlag
  cases h : s.config.flagOrder
  · exact .inl ⟨rfl, rfl⟩
  · exact .inr ⟨rfl, rfl⟩

/-- The register x after it. -/
theorem reg_dest_writeResultAndFlag :
    (writeResultAndFlag x res flag s).reg x =
      if x = 15 ∧ s.config.flagOrder = .destThenFlag then flagByte flag else res := by
  rcases writeResultAndFlag_cases x res flag s with ⟨h, e⟩ | ⟨h, e⟩
  · simp [e, h]
  · rw [e, State.reg_setReg]
    by_cases hx : x = 15 <;> simp [hx, h]

/-- VF after it, when VF is not the destination. -/
theorem reg_flag_writeResultAndFlag (hx : x ≠ 15) :
    (writeResultAndFlag x res flag s).reg 15 = flagByte flag := by
  rcases writeResultAndFlag_cases x res flag s with ⟨_, e⟩ | ⟨_, e⟩
  · rw [e, State.reg_setReg_ne _ _ _ _ (Ne.symm hx)]; simp
  · rw [e]; simp

/-- Every other register after it. -/
theorem reg_other_writeResultAndFlag (y : Reg) (h1 : y ≠ x) (h2 : y ≠ 15) :
    (writeResultAndFlag x res flag s).reg y = s.reg y := by
  rcases writeResultAndFlag_cases x res flag s with ⟨_, e⟩ | ⟨_, e⟩ <;> rw [e] <;> simp [h1, h2]

@[simp] theorem writeResultAndFlag_i : (writeResultAndFlag x res flag s).i = s.i := by
  rcases writeResultAndFlag_cases x res flag s with ⟨_, e⟩ | ⟨_, e⟩ <;> rw [e] <;> rfl

@[simp] theorem writeResultAndFlag_pc : (writeResultAndFlag x res flag s).pc = s.pc := by
  rcases writeResultAndFlag_cases x res flag s with ⟨_, e⟩ | ⟨_, e⟩ <;> rw [e] <;> rfl

@[simp] theorem writeResultAndFlag_sp : (writeResultAndFlag x res flag s).sp = s.sp := by
  rcases writeResultAndFlag_cases x res flag s with ⟨_, e⟩ | ⟨_, e⟩ <;> rw [e] <;> rfl

@[simp] theorem writeResultAndFlag_stack : (writeResultAndFlag x res flag s).stack = s.stack := by
  rcases writeResultAndFlag_cases x res flag s with ⟨_, e⟩ | ⟨_, e⟩ <;> rw [e] <;> rfl

@[simp] theorem writeResultAndFlag_dt : (writeResultAndFlag x res flag s).dt = s.dt := by
  rcases writeResultAndFlag_cases x res flag s with ⟨_, e⟩ | ⟨_, e⟩ <;> rw [e] <;> rfl

@[simp] theorem writeResultAndFlag_st : (writeResultAndFlag x res flag s).st = s.st := by
  rcases writeResultAndFlag_cases x res flag s with ⟨_, e⟩ | ⟨_, e⟩ <;> rw [e] <;> rfl

@[simp] theorem writeResultAndFlag_fb : (writeResultAndFlag x res flag s).fb = s.fb := by
  rcases writeResultAndFlag_cases x res flag s with ⟨_, e⟩ | ⟨_, e⟩ <;> rw [e] <;> rfl

@[simp] theorem writeResultAndFlag_keys : (writeResultAndFlag x res flag s).keys = s.keys := by
  rcases writeResultAndFlag_cases x res flag s with ⟨_, e⟩ | ⟨_, e⟩ <;> rw [e] <;> rfl

@[simp] theorem writeResultAndFlag_mem : (writeResultAndFlag x res flag s).mem = s.mem := by
  rcases writeResultAndFlag_cases x res flag s with ⟨_, e⟩ | ⟨_, e⟩ <;> rw [e] <;> rfl

@[simp] theorem writeResultAndFlag_fault : (writeResultAndFlag x res flag s).fault = s.fault := by
  rcases writeResultAndFlag_cases x res flag s with ⟨_, e⟩ | ⟨_, e⟩ <;> rw [e] <;> rfl

@[simp] theorem writeResultAndFlag_draws : (writeResultAndFlag x res flag s).draws = s.draws := by
  rcases writeResultAndFlag_cases x res flag s with ⟨_, e⟩ | ⟨_, e⟩ <;> rw [e] <;> rfl

@[simp] theorem writeResultAndFlag_config : (writeResultAndFlag x res flag s).config = s.config := by
  rcases writeResultAndFlag_cases x res flag s with ⟨_, e⟩ | ⟨_, e⟩ <;> rw [e] <;> rfl

@[simp] theorem peek_writeResultAndFlag (a : Nat) : (writeResultAndFlag x res flag s).peek a = s.peek a := by
  simp [State.peek]

/-! ### skipIf -/

variable (c : Bool)

@[simp] theorem State.skipIf_pc : (s.skipIf c).pc = if c then s.pc + 2 else s.pc := by
  cases c <;> rfl

@[simp] theorem State.skipIf_v : (s.skipIf c).v = s.v := by cases c <;> rfl

@[simp] theorem State.skipIf_i : (s.skipIf c).i = s.i := by cases c <;> rfl

@[simp] theorem State.skipIf_sp : (s.skipIf c).sp = s.sp := by cases c <;> rfl

@[simp] theorem State.skipIf_stack : (s.skipIf c).stack = s.stack := by cases c <;> rfl

@[simp] theorem State.skipIf_dt : (s.skipIf c).dt = s.dt := by cases c <;> rfl

@[simp] theorem State.skipIf_st : (s.skipIf c).st = s.st := by cases c <;> rfl

@[simp] theorem State.skipIf_fb : (s.skipIf c).fb = s.fb := by cases c <;> rfl

@[simp] theorem State.skipIf_keys : (s.skipIf c).keys = s.keys := by cases c <;> rfl

@[simp] theorem State.skipIf_mem : (s.skipIf c).mem = s.mem := by cases c <;> rfl

@[simp] theorem State.skipIf_fault : (s.skipIf c).fault = s.fault := by cases c <;> rfl

@[simp] theorem State.skipIf_draws : (s.skipIf c).draws = s.draws := by cases c <;> rfl

@[simp] theorem State.skipIf_config : (s.skipIf c).config = s.config := by cases c <;> rfl

@[simp] theorem State.reg_skipIf (y : Reg) : (s.skipIf c).reg y = s.reg y := by cases c <;> rfl

@[simp] theorem State.peek_skipIf (a : Nat) : (s.skipIf c).peek a = s.peek a := by cases c <;> rfl

end Sys2Proof.Machine
end

