-- ==== Sys2Proof/Laws/Display.lean ====
section
/-! SUPPORT. What drawing can do (44_display.md R201 to R206): which pixels are placed, what placing them leaves, and when
a sprite faults. -/

namespace Sys2Proof.Machine

/-! ### One pixel -/

theorem pixelOn_flipPixel (fb : Framebuffer) (p q : Nat) (hp : p < 2048) :
    pixelOn (flipPixel fb p) q = (pixelOn fb q ^^ decide (p = q)) := by
  have hp64 : p / 64 < 32 := by omega
  simp only [pixelOn, flipPixel, hp64, dite_true]
  by_cases hq : q / 64 < 32
  · rw [dif_pos hq, dif_pos hq, Vector.getElem_set]
    by_cases hw : p / 64 = q / 64
    · rw [if_pos hw]
      simp only [hw, BitVec.getLsbD_xor, BitVec.getLsbD_twoPow]
      congr 1
      by_cases hpq : p = q
      · subst hpq; simp; omega
      · have : p % 64 ≠ q % 64 := fun e => hpq (by omega)
        simp [hpq, this]
    · have hpq : p ≠ q := fun e => hw (by rw [e])
      rw [if_neg hw]
      simp [hpq]
  · have hpq : p ≠ q := fun e => hq (e ▸ hp64)
    rw [dif_neg hq, dif_neg hq]
    simp [hpq]

/-- Nothing lies past pixel 2047. -/
theorem pixelOn_ge (fb : Framebuffer) (p : Nat) (hp : 2048 ≤ p) : pixelOn fb p = false := by
  have : ¬ p / 64 < 32 := by omega
  simp [pixelOn, this]

@[simp] theorem pixelOn_clear (p : Nat) : pixelOn clearFramebuffer p = false := by
  unfold pixelOn clearFramebuffer
  split <;> simp

/-- Two framebuffers with the same 2048 pixels are equal. -/
theorem framebuffer_ext {a b : Framebuffer} (h : ∀ p < 2048, pixelOn a p = pixelOn b p) : a = b := by
  apply Vector.ext
  intro r hr
  apply BitVec.eq_of_getLsbD_eq
  intro c hc
  have hd : (r * 64 + c) / 64 = r := by omega
  have hm : (r * 64 + c) % 64 = c := by omega
  have := h (r * 64 + c) (by omega)
  simpa [pixelOn, hd, hm, hr] using this

/-- A placed pixel lies in the framebuffer, for the columns and rows a sprite can reach (R204). -/
theorem place_lt {edge : DrawEdge} {c r p : Nat} (h : place edge c r = .pixel p) : p < 2048 := by
  cases edge <;> simp only [place] at h
  · split at h
    · simp only [Placement.pixel.injEq] at h; omega
    · simp at h
  · split at h
    · simp at h
    · simp only [Placement.pixel.injEq] at h; omega
  · simp only [Placement.pixel.injEq] at h
    omega

/-- Only the flat mode places outside the framebuffer, and only past its end (R204). -/
theorem place_outside {edge : DrawEdge} {c r p : Nat} (h : place edge c r = .outside p) :
    edge = .flat ∧ p = r * 64 + c ∧ 2047 < p := by
  cases edge <;> simp only [place] at h
  · split at h
    · simp at h
    · simp only [Placement.outside.injEq] at h; exact ⟨rfl, h.symm, by omega⟩
  · split at h <;> simp at h
  · simp at h

/-! ### The placed pixels -/

/-- The pixel that column `col` of a sprite byte is placed on, if that bit is on and placed. -/
def placedPixel (edge : DrawEdge) (b : Byte) (x0 r col : Nat) : Option Nat :=
  if spriteBit b col then
    match place edge (x0 + col) r with
    | .pixel p => some p
    | .skip => none
    | .outside _ => none
  else none

/-- The pixels of one sprite byte. -/
def rowPixels (edge : DrawEdge) (b : Byte) (x0 r : Nat) (cols : List Nat) : List Nat :=
  cols.filterMap (placedPixel edge b x0 r)

/-- The pixels of a sprite. -/
def spritePixels (s : State) (x0 y0 : Nat) (rows : List Nat) : List Nat :=
  rows.flatMap fun row => rowPixels s.config.drawEdge (s.peek (s.indexAddr row)) x0 (y0 + row) (List.range 8)

/-- Pixels drawn one after the other. -/
def paint (ps : List Nat) (k : Canvas) : Canvas :=
  ps.foldl (fun k p => ⟨flipPixel k.fb p, k.hit || pixelOn k.fb p⟩) k

theorem paint_append (ps qs : List Nat) (k : Canvas) : paint (ps ++ qs) k = paint qs (paint ps k) := by
  simp [paint]

/-- Drawing distinct pixels flips exactly those, and the flag is set iff one of them was on before (R203). -/
theorem paint_nodup (ps : List Nat) (k : Canvas) (hn : ps.Nodup) (hlt : ∀ p ∈ ps, p < 2048) :
    (∀ q, pixelOn (paint ps k).fb q = (pixelOn k.fb q ^^ decide (q ∈ ps))) ∧
    (paint ps k).hit = (k.hit || ps.any (pixelOn k.fb)) := by
  induction ps generalizing k with
  | nil => simp [paint]
  | cons p ps ih =>
    obtain ⟨hp, hn⟩ := List.nodup_cons.1 hn
    have hplt : p < 2048 := hlt p (by simp)
    obtain ⟨h1, h2⟩ := ih ⟨flipPixel k.fb p, k.hit || pixelOn k.fb p⟩ hn
      (fun q hq => hlt q (List.mem_cons_of_mem _ hq))
    constructor
    · intro q
      have := h1 q
      simp only [paint, List.foldl_cons] at this ⊢
      rw [this, pixelOn_flipPixel _ _ _ hplt]
      by_cases hpq : p = q
      · subst hpq; simp [hp]
      · have : q ≠ p := Ne.symm hpq
        simp [hpq, this]
    · simp only [paint, List.foldl_cons] at h2 ⊢
      rw [h2, List.any_cons, Bool.or_assoc]
      congr 2
      rw [Bool.eq_iff_iff]
      simp only [List.any_eq_true]
      refine exists_congr fun q => and_congr_right fun hq => ?_
      have hpq : p ≠ q := fun e => hp (e ▸ hq)
      rw [pixelOn_flipPixel _ _ _ hplt]
      simp [hpq]

/-! ### Rows and sprites -/

/-- Does column `col` of the sprite byte leave the framebuffer? -/
def colOutside (edge : DrawEdge) (b : Byte) (x0 r col : Nat) : Prop :=
  spriteBit b col = true ∧ ∃ p, place edge (x0 + col) r = .outside p

/-- One sprite byte: it is drawn, every column inside; or its first outside column faults (R243). -/
theorem drawCols_cases (edge : DrawEdge) (b : Byte) (x0 r : Nat) (cols : List Nat) (k : Canvas) :
    (drawCols edge b x0 r cols k = .ok (paint (rowPixels edge b x0 r cols) k) ∧
      ∀ col ∈ cols, ¬ colOutside edge b x0 r col) ∨
    ∃ before col after p, cols = before ++ col :: after ∧ (∀ c ∈ before, ¬ colOutside edge b x0 r c) ∧
      spriteBit b col = true ∧ place edge (x0 + col) r = .outside p ∧
      drawCols edge b x0 r cols k = .error (.drawOob p) := by
  induction cols generalizing k with
  | nil => exact .inl ⟨rfl, by simp⟩
  | cons col cols ih =>
    by_cases hb : spriteBit b col = true
    · cases hp : place edge (x0 + col) r with
      | pixel p =>
        have hin : ¬ colOutside edge b x0 r col := by rintro ⟨_, q, hq⟩; simp [hp] at hq
        rcases ih ⟨flipPixel k.fb p, k.hit || pixelOn k.fb p⟩ with ⟨h1, h2⟩ | ⟨pre, c, post, q, h1, h2, h3, h4, h5⟩
        · refine .inl ⟨?_, by simpa [hin] using h2⟩
          simp [drawCols, drawPixel, hb, hp, h1, rowPixels, placedPixel, paint]
        · refine .inr ⟨col :: pre, c, post, q, by simp [h1], by simpa [hin] using h2, h3, h4, ?_⟩
          simp [drawCols, drawPixel, hb, hp, h5]
      | skip =>
        have hin : ¬ colOutside edge b x0 r col := by rintro ⟨_, q, hq⟩; simp [hp] at hq
        rcases ih k with ⟨h1, h2⟩ | ⟨pre, c, post, q, h1, h2, h3, h4, h5⟩
        · refine .inl ⟨?_, by simpa [hin] using h2⟩
          simp [drawCols, drawPixel, hb, hp, h1, rowPixels, placedPixel, paint]
        · refine .inr ⟨col :: pre, c, post, q, by simp [h1], by simpa [hin] using h2, h3, h4, ?_⟩
          simp [drawCols, drawPixel, hb, hp, h5]
      | outside p =>
        exact .inr ⟨[], col, cols, p, rfl, by simp, hb, hp, by simp [drawCols, drawPixel, hb, hp]⟩
    · have hin : ¬ colOutside edge b x0 r col := fun h => hb h.1
      rcases ih k with ⟨h1, h2⟩ | ⟨pre, c, post, q, h1, h2, h3, h4, h5⟩
      · refine .inl ⟨?_, by simpa [hin] using h2⟩
        simp [drawCols, hb, h1, rowPixels, placedPixel, paint]
      · refine .inr ⟨col :: pre, c, post, q, by simp [h1], by simpa [hin] using h2, h3, h4, ?_⟩
        simp [drawCols, hb, h5]

/-- Does row `row` of the sprite at I fault: its byte out of range, or one of its columns outside? -/
def rowFaults (s : State) (x0 y0 row : Nat) : Prop :=
  0xFFF < s.indexAddr row ∨
    ∃ col < 8, colOutside s.config.drawEdge (s.peek (s.indexAddr row)) x0 (y0 + row) col

/-- A sprite: it is drawn, no row faulting; or its first faulting row faults, its byte before its pixels and the
pixels left to right (R201, R243). -/
theorem drawRows_cases (s : State) (x0 y0 : Nat) (rows : List Nat) (k : Canvas) :
    (drawRows s x0 y0 rows k = .ok (paint (spritePixels s x0 y0 rows) k) ∧
      ∀ row ∈ rows, ¬ rowFaults s x0 y0 row) ∨
    ∃ before row after, rows = before ++ row :: after ∧ (∀ q ∈ before, ¬ rowFaults s x0 y0 q) ∧
      ((0xFFF < s.indexAddr row ∧ drawRows s x0 y0 rows k = .error (.memOob (s.indexAddr row))) ∨
       (s.indexAddr row ≤ 0xFFF ∧ ∃ col < 8, ∃ p,
          (∀ c < col, ¬ colOutside s.config.drawEdge (s.peek (s.indexAddr row)) x0 (y0 + row) c) ∧
          spriteBit (s.peek (s.indexAddr row)) col = true ∧
          place s.config.drawEdge (x0 + col) (y0 + row) = .outside p ∧
          drawRows s x0 y0 rows k = .error (.drawOob p))) := by
  induction rows generalizing k with
  | nil => exact .inl ⟨rfl, by simp⟩
  | cons row rows ih =>
    by_cases ha : s.indexAddr row ≤ 0xFFF
    · have hr : s.memRead (s.indexAddr row) = .ok (s.peek (s.indexAddr row)) := memRead_eq_ok.2 ⟨ha, rfl⟩
      rcases drawCols_cases s.config.drawEdge (s.peek (s.indexAddr row)) x0 (y0 + row) (List.range 8) k with
        ⟨h1, h2⟩ | ⟨pre, col, post, p, h1, h2, h3, h4, h5⟩
      · have hin : ¬ rowFaults s x0 y0 row := by
          rintro (h | ⟨c, hc, h⟩)
          · omega
          · exact h2 c (List.mem_range.2 hc) h
        rcases ih (paint (rowPixels s.config.drawEdge (s.peek (s.indexAddr row)) x0 (y0 + row) (List.range 8)) k) with
          ⟨g1, g2⟩ | ⟨pre, q, post, g1, g2, g3⟩
        · refine .inl ⟨?_, by simpa [hin] using g2⟩
          simp only [drawRows, hr, h1, g1, spritePixels, List.flatMap_cons, paint_append]
        · refine .inr ⟨row :: pre, q, post, by simp [g1], by simpa [hin] using g2, ?_⟩
          simpa only [drawRows, hr, h1] using g3
      · have hlt : ∀ c ∈ List.range 8, c < 8 := fun c hc => List.mem_range.1 hc
        have hpre : pre = List.range col := by
          have hl : pre.length = col := by
            have h8 : pre.length < (List.range 8).length := by rw [h1]; simp
            have := congrArg (fun l => l[pre.length]?) h1
            simp only [List.getElem?_append_right (Nat.le_refl _), Nat.sub_self, List.getElem?_cons_zero] at this
            rw [List.getElem?_eq_getElem h8, List.getElem_range] at this
            exact Option.some.inj this
          have := congrArg (List.take col) h1
          rw [← hl, List.take_left, hl, List.take_range] at this
          have hc8 : col < 8 := hlt col (by rw [h1]; simp)
          rw [Nat.min_eq_left (by omega)] at this
          exact this.symm
        refine .inr ⟨[], row, rows, rfl, by simp, .inr ⟨ha, col, hlt col (by rw [h1]; simp), p, ?_, h3, h4, ?_⟩⟩
        · intro c hc; exact h2 c (by rw [hpre]; exact List.mem_range.2 hc)
        · simp only [drawRows, hr, h5]
    · have hr : s.memRead (s.indexAddr row) = .error (.memOob (s.indexAddr row)) :=
        memRead_eq_error.2 ⟨by omega, rfl⟩
      exact .inr ⟨[], row, rows, rfl, by simp, .inl ⟨by omega, by simp only [drawRows, hr]⟩⟩

end Sys2Proof.Machine
end

