-- ==== Sys2Proof/Laws/Encoding.lean ====
section
/-! SUPPORT. The fields of the words the encoder writes (30_encoding.md R81, R82). -/

namespace Sys2Proof

variable (f n : BitVec 4) (x y : Reg) (kk : Byte) (nnn : BitVec 12)

/-! ### The words bit by bit -/

theorem getLsbD_wordNnn (k : Nat) :
    (wordNnn f nnn).getLsbD k = if k < 12 then nnn.getLsbD k else f.getLsbD (k - 12) := by
  have : (wordNnn f nnn).getLsbD k = (f ++ nnn).getLsbD k := rfl
  rw [this, BitVec.getLsbD_append]

theorem getLsbD_wordXkk (k : Nat) :
    (wordXkk f x kk).getLsbD k =
      if k < 8 then kk.getLsbD k else if k < 12 then x.val.testBit (k - 8) else f.getLsbD (k - 12) := by
  have : (wordXkk f x kk).getLsbD k = (f ++ BitVec.ofFin (w := 4) x ++ kk).getLsbD k := rfl
  rw [this, BitVec.getLsbD_append, BitVec.getLsbD_append]
  split
  · rfl
  · by_cases h : k < 12
    · rw [if_pos h, if_pos (by omega)]; rfl
    · rw [if_neg h, if_neg (by omega), Nat.sub_sub]

theorem getLsbD_wordXyn (k : Nat) :
    (wordXyn f x y n).getLsbD k =
      if k < 4 then n.getLsbD k else if k < 8 then y.val.testBit (k - 4)
      else if k < 12 then x.val.testBit (k - 8) else f.getLsbD (k - 12) := by
  have : (wordXyn f x y n).getLsbD k =
      (f ++ BitVec.ofFin (w := 4) x ++ BitVec.ofFin (w := 4) y ++ n).getLsbD k := rfl
  rw [this, BitVec.getLsbD_append, BitVec.getLsbD_append, BitVec.getLsbD_append]
  split
  · rfl
  · by_cases h8 : k < 8
    · rw [if_pos h8, if_pos (by omega)]; rfl
    · rw [if_neg h8, if_neg (by omega)]
      by_cases h : k < 12
      · rw [if_pos h, if_pos (by omega), Nat.sub_sub]; rfl
      · rw [if_neg h, if_neg (by omega), Nat.sub_sub, Nat.sub_sub]

/-! ### The fields -/

theorem familyOf_wordNnn : familyOf (wordNnn f nnn) = f := by
  apply BitVec.eq_of_getLsbD_eq
  intro k hk
  rw [familyOf, BitVec.getLsbD_extractLsb', getLsbD_wordNnn, if_neg (by omega)]
  simp [hk]

theorem nnnOf_wordNnn : nnnOf (wordNnn f nnn) = nnn := by
  apply BitVec.eq_of_getLsbD_eq
  intro k hk
  rw [nnnOf, BitVec.getLsbD_extractLsb', getLsbD_wordNnn, if_pos (by omega)]
  simp [hk]

theorem familyOf_wordXkk : familyOf (wordXkk f x kk) = f := by
  apply BitVec.eq_of_getLsbD_eq
  intro k hk
  rw [familyOf, BitVec.getLsbD_extractLsb', getLsbD_wordXkk, if_neg (by omega), if_neg (by omega)]
  simp [hk]

theorem xOf_wordXkk : xOf (wordXkk f x kk) = x := by
  have : (wordXkk f x kk).extractLsb' 8 4 = BitVec.ofFin (w := 4) x := by
    apply BitVec.eq_of_getLsbD_eq
    intro k hk
    rw [BitVec.getLsbD_extractLsb', getLsbD_wordXkk, if_neg (by omega), if_pos (by omega), Nat.add_sub_cancel_left]
    simp [hk]
  rw [xOf, this]

theorem kkOf_wordXkk : kkOf (wordXkk f x kk) = kk := by
  apply BitVec.eq_of_getLsbD_eq
  intro k hk
  rw [kkOf, BitVec.getLsbD_extractLsb', getLsbD_wordXkk, if_pos (by omega)]
  simp [hk]

theorem nOf_wordXkk : nOf (wordXkk f x kk) = kk.extractLsb' 0 4 := by
  apply BitVec.eq_of_getLsbD_eq
  intro k hk
  rw [nOf, BitVec.getLsbD_extractLsb', getLsbD_wordXkk, if_pos (by omega), BitVec.getLsbD_extractLsb']

theorem familyOf_wordXyn : familyOf (wordXyn f x y n) = f := by
  apply BitVec.eq_of_getLsbD_eq
  intro k hk
  rw [familyOf, BitVec.getLsbD_extractLsb', getLsbD_wordXyn, if_neg (by omega), if_neg (by omega),
    if_neg (by omega)]
  simp [hk]

theorem xOf_wordXyn : xOf (wordXyn f x y n) = x := by
  have : (wordXyn f x y n).extractLsb' 8 4 = BitVec.ofFin (w := 4) x := by
    apply BitVec.eq_of_getLsbD_eq
    intro k hk
    rw [BitVec.getLsbD_extractLsb', getLsbD_wordXyn, if_neg (by omega), if_neg (by omega), if_pos (by omega),
      Nat.add_sub_cancel_left]
    simp [hk]
  rw [xOf, this]

theorem yOf_wordXyn : yOf (wordXyn f x y n) = y := by
  have : (wordXyn f x y n).extractLsb' 4 4 = BitVec.ofFin (w := 4) y := by
    apply BitVec.eq_of_getLsbD_eq
    intro k hk
    rw [BitVec.getLsbD_extractLsb', getLsbD_wordXyn, if_neg (by omega), if_pos (by omega), Nat.add_sub_cancel_left]
    simp [hk]
  rw [yOf, this]

theorem nOf_wordXyn : nOf (wordXyn f x y n) = n := by
  apply BitVec.eq_of_getLsbD_eq
  intro k hk
  rw [nOf, BitVec.getLsbD_extractLsb', getLsbD_wordXyn, if_pos (by omega)]
  simp [hk]

end Sys2Proof
end

