-- ==== Sys2Proof/Laws/PerInstr.lean ====
section
/-! SUPPORT. One lemma per constructor: the encoded word carries the family of the instruction's table row
(30_encoding.md R81, R89). -/

namespace Sys2Proof.Laws.FamilyField

/-- The family, `op[15:12]`, of each instruction's row (R89). -/
def familyIn : Instr → BitVec 4
  | .cls => 0x0
  | .ret => 0x0
  | .sys _ => 0x0
  | .jp _ => 0x1
  | .call _ => 0x2
  | .seImm _ _ => 0x3
  | .sneImm _ _ => 0x4
  | .seReg _ _ => 0x5
  | .ldImm _ _ => 0x6
  | .addImm _ _ => 0x7
  | .ldReg _ _ => 0x8
  | .orReg _ _ => 0x8
  | .andReg _ _ => 0x8
  | .xorReg _ _ => 0x8
  | .addReg _ _ => 0x8
  | .subReg _ _ => 0x8
  | .shr _ _ => 0x8
  | .subn _ _ => 0x8
  | .shl _ _ => 0x8
  | .nop8 => 0x8
  | .sneReg _ _ => 0x9
  | .ldI _ => 0xA
  | .jpV0 _ => 0xB
  | .rnd _ _ => 0xC
  | .drw _ _ _ => 0xD
  | .skp _ => 0xE
  | .sknp _ => 0xE
  | .nopE => 0xE
  | .ldVxDt _ => 0xF
  | .ldVxK _ => 0xF
  | .ldDtVx _ => 0xF
  | .ldStVx _ => 0xF
  | .addI _ => 0xF
  | .ldF _ => 0xF
  | .ldB _ => 0xF
  | .ldMemVx _ => 0xF
  | .ldVxMem _ => 0xF
  | .nopF => 0xF

/-- The family field of the encoded word is the row's. -/
def Statement (i : Instr) : Prop := familyOf (encode i) = familyIn i

theorem cls : Statement .cls := rfl
theorem ret : Statement .ret := rfl
theorem sys (nnn : BitVec 12) : Statement (.sys nnn) := familyOf_wordNnn _ _
theorem jp (nnn : BitVec 12) : Statement (.jp nnn) := familyOf_wordNnn _ _
theorem call (nnn : BitVec 12) : Statement (.call nnn) := familyOf_wordNnn _ _
theorem seImm (x : Reg) (kk : Byte) : Statement (.seImm x kk) := familyOf_wordXkk _ _ _
theorem sneImm (x : Reg) (kk : Byte) : Statement (.sneImm x kk) := familyOf_wordXkk _ _ _
theorem seReg (x : Reg) (y : Reg) : Statement (.seReg x y) := familyOf_wordXyn _ _ _ _
theorem ldImm (x : Reg) (kk : Byte) : Statement (.ldImm x kk) := familyOf_wordXkk _ _ _
theorem addImm (x : Reg) (kk : Byte) : Statement (.addImm x kk) := familyOf_wordXkk _ _ _
theorem ldReg (x : Reg) (y : Reg) : Statement (.ldReg x y) := familyOf_wordXyn _ _ _ _
theorem orReg (x : Reg) (y : Reg) : Statement (.orReg x y) := familyOf_wordXyn _ _ _ _
theorem andReg (x : Reg) (y : Reg) : Statement (.andReg x y) := familyOf_wordXyn _ _ _ _
theorem xorReg (x : Reg) (y : Reg) : Statement (.xorReg x y) := familyOf_wordXyn _ _ _ _
theorem addReg (x : Reg) (y : Reg) : Statement (.addReg x y) := familyOf_wordXyn _ _ _ _
theorem subReg (x : Reg) (y : Reg) : Statement (.subReg x y) := familyOf_wordXyn _ _ _ _
theorem shr (x : Reg) (y : Reg) : Statement (.shr x y) := familyOf_wordXyn _ _ _ _
theorem subn (x : Reg) (y : Reg) : Statement (.subn x y) := familyOf_wordXyn _ _ _ _
theorem shl (x : Reg) (y : Reg) : Statement (.shl x y) := familyOf_wordXyn _ _ _ _
theorem nop8 : Statement .nop8 := rfl
theorem sneReg (x : Reg) (y : Reg) : Statement (.sneReg x y) := familyOf_wordXyn _ _ _ _
theorem ldI (nnn : BitVec 12) : Statement (.ldI nnn) := familyOf_wordNnn _ _
theorem jpV0 (nnn : BitVec 12) : Statement (.jpV0 nnn) := familyOf_wordNnn _ _
theorem rnd (x : Reg) (kk : Byte) : Statement (.rnd x kk) := familyOf_wordXkk _ _ _
theorem drw (x : Reg) (y : Reg) (n : BitVec 4) : Statement (.drw x y n) := familyOf_wordXyn _ _ _ _
theorem skp (x : Reg) : Statement (.skp x) := familyOf_wordXkk _ _ _
theorem sknp (x : Reg) : Statement (.sknp x) := familyOf_wordXkk _ _ _
theorem nopE : Statement .nopE := rfl
theorem ldVxDt (x : Reg) : Statement (.ldVxDt x) := familyOf_wordXkk _ _ _
theorem ldVxK (x : Reg) : Statement (.ldVxK x) := familyOf_wordXkk _ _ _
theorem ldDtVx (x : Reg) : Statement (.ldDtVx x) := familyOf_wordXkk _ _ _
theorem ldStVx (x : Reg) : Statement (.ldStVx x) := familyOf_wordXkk _ _ _
theorem addI (x : Reg) : Statement (.addI x) := familyOf_wordXkk _ _ _
theorem ldF (x : Reg) : Statement (.ldF x) := familyOf_wordXkk _ _ _
theorem ldB (x : Reg) : Statement (.ldB x) := familyOf_wordXkk _ _ _
theorem ldMemVx (x : Reg) : Statement (.ldMemVx x) := familyOf_wordXkk _ _ _
theorem ldVxMem (x : Reg) : Statement (.ldVxMem x) := familyOf_wordXkk _ _ _
theorem nopF : Statement .nopF := rfl

end Sys2Proof.Laws.FamilyField
end

