-- ==== Sys2Proof/Laws/Runs.lean ====
section
/-! SUPPORT. What a Load and a finite run of host actions can do (20_memory.md R60, 60_exceptions.md R257, R261). -/

namespace Sys2Proof.Machine

theorem loadRom_of_le {rom : List Byte} {s : State} (h : rom.length ≤ 3584) :
    loadRom rom s = some (pokeAll 0x200 rom s) := if_neg (by omega)

theorem loadRom_of_gt {rom : List Byte} {s : State} (h : 3584 < rom.length) : loadRom rom s = none := if_pos h

/-- Everything a Load can do: the bytes are in memory, or nothing changes. -/
theorem afterLoad_cases (rom : List Byte) (s : State) :
    (rom.length ≤ 3584 ∧ afterLoad rom s = pokeAll 0x200 rom s) ∨ (3584 < rom.length ∧ afterLoad rom s = s) := by
  by_cases h : rom.length ≤ 3584
  · exact .inl ⟨h, by simp [afterLoad, loadRom_of_le h]⟩
  · have h' : 3584 < rom.length := by omega
    exact .inr ⟨h', by simp [afterLoad, loadRom_of_gt h']⟩

@[simp] theorem boot_none (c : Config) : boot c none = State.resetWith c := rfl

theorem boot_some_of_le {c : Config} {rom : List Byte} (h : rom.length ≤ 3584) :
    boot c (some rom) = pokeAll 0x200 rom (State.resetWith c) := by
  simp [boot, afterLoad, loadRom_of_le h]

theorem boot_some_of_gt {c : Config} {rom : List Byte} (h : 3584 < rom.length) :
    boot c (some rom) = State.resetWith c := by
  simp [boot, afterLoad, loadRom_of_gt h]

@[simp] theorem boot_config (c : Config) (rom : Option (List Byte)) : (boot c rom).config = c := by
  cases rom with
  | none => rfl
  | some rom =>
    rcases afterLoad_cases rom (State.resetWith c) with ⟨_, h⟩ | ⟨_, h⟩ <;> simp only [boot, h, pokeAll_config] <;> rfl

@[simp] theorem boot_fault (c : Config) (rom : Option (List Byte)) : (boot c rom).fault = none := by
  cases rom with
  | none => rfl
  | some rom =>
    rcases afterLoad_cases rom (State.resetWith c) with ⟨_, h⟩ | ⟨_, h⟩ <;> simp only [boot, h, pokeAll_fault] <;> rfl

/-- An action that answers a next state hands it to the rest of the run. -/
theorem runActions_cons {a : Action} {as : List Action} {s t : State} (h : act s a = .next t) :
    runActions (a :: as) s = runActions as t := by
  simp only [runActions, h]

/-- What every action keeps, and every action completes under, holds after any run. -/
theorem runActions_keeps {P : State → Prop} (hact : ∀ s a, P s → ∃ t, act s a = .next t ∧ P t) :
    ∀ (as : List Action) (s : State), P s → ∃ t, runActions as s = .next t ∧ P t
  | [], s, hs => ⟨s, rfl, hs⟩
  | a :: as, s, hs => by
    obtain ⟨t, ht, hp⟩ := hact s a hs
    rw [runActions_cons ht]
    exact runActions_keeps hact as t hp

end Sys2Proof.Machine
end

