-- ==== Sys2Proof/Laws/Step.lean ====
section
/-! SUPPORT. Everything one step can do (40_cycle.md R111, 60_exceptions.md R242), and what placing an instruction
does. -/

namespace Sys2Proof.Machine

theorem fetchWord_eq_ok {s : State} {op : Word} :
    fetchWord s = .ok op ↔
      s.pc.toNat + 1 ≤ 0xFFF ∧ op = composeWord (s.peek s.pc.toNat) (s.peek (s.pc.toNat + 1)) := by
  unfold fetchWord
  split
  · simp; omega
  · next h =>
    have : s.pc.toNat + 1 ≤ 0xFFF := by omega
    simp [this, eq_comm]

theorem fetchWord_eq_error {s : State} {f : Fault} :
    fetchWord s = .error f ↔ 0xFFF < s.pc.toNat + 1 ∧ f = .fetchOob s.pc := by
  unfold fetchWord
  split
  · next h => simp [h, eq_comm]
  · next h => simp [h]

/-- A faulted machine does not change (R111 step 0). -/
theorem step_faulted {s : State} (h : s.fault ≠ none) : step s = .next s := by
  unfold step cycle
  cases hf : s.fault with
  | none => exact absurd hf h
  | some r => rfl

/-- A fetch out of range is recorded (R111 step 1, R242). -/
theorem step_fetchOob {s : State} (h : s.fault = none) (hpc : 0xFFF < s.pc.toNat + 1) :
    step s = .next (recordFault (.fetchOob s.pc) none s) := by
  simp only [step, cycle, h, fetchWord_eq_error.2 ⟨hpc, rfl⟩]

/-- Any other Cycle executes the instruction it fetched (R111 steps 2 to 5). -/
theorem step_fetched {s : State} {op : Word} (h : s.fault = none) (hop : fetchWord s = .ok op) :
    step s = endCycle s op (exec (decode s.config op) (preIncrement s)) := by
  simp only [step, cycle, h, hop]

/-- Every next state of a step, by where it comes from. -/
theorem step_cases {s t : State} (h : step s = .next t) :
    (s.fault ≠ none ∧ t = s) ∨
    (s.fault = none ∧ 0xFFF < s.pc.toNat + 1 ∧ t = recordFault (.fetchOob s.pc) none s) ∨
    ∃ op, s.fault = none ∧ fetchWord s = .ok op ∧
      ((∃ u, exec (decode s.config op) (preIncrement s) = .next u ∧ t = timerPostStep u) ∨
       ∃ f, exec (decode s.config op) (preIncrement s) = .fault f ∧ t = recordFault f (some op) s) := by
  by_cases hf : s.fault = none
  · cases hw : fetchWord s with
    | error f =>
      have hpc := (fetchWord_eq_error.1 hw).1
      rw [step_fetchOob hf hpc] at h
      exact .inr (.inl ⟨hf, hpc, (Host.Outcome.next.inj h).symm⟩)
    | ok op =>
      rw [step_fetched hf hw] at h
      cases he : exec (decode s.config op) (preIncrement s) with
      | next u =>
        rw [he] at h
        exact .inr (.inr ⟨op, hf, rfl, .inl ⟨u, he, (Host.Outcome.next.inj h).symm⟩⟩)
      | fault f =>
        rw [he] at h
        exact .inr (.inr ⟨op, hf, rfl, .inr ⟨f, he, (Host.Outcome.next.inj h).symm⟩⟩)
      | refused r => rw [he] at h; cases h
  · rw [step_faulted hf] at h
    exact .inl ⟨hf, (Host.Outcome.next.inj h).symm⟩

/-- No step ends in a fault: the Cycle records it (R242). -/
theorem step_ne_fault (s : State) (f : Fault) : step s ≠ .fault f := by
  intro h
  by_cases hf : s.fault = none
  · cases hw : fetchWord s with
    | error g => rw [step_fetchOob hf (fetchWord_eq_error.1 hw).1] at h; cases h
    | ok op =>
      rw [step_fetched hf hw] at h
      cases he : exec (decode s.config op) (preIncrement s) <;> rw [he] at h <;> cases h
  · rw [step_faulted hf] at h; cases h

/-! ### Timers -/

theorem toNat_countDown (t : Byte) : (countDown t).toNat = t.toNat - 1 := by
  unfold countDown
  split
  · next h => simp [h]
  · next h =>
    have h0 : t.toNat ≠ 0 := fun e => h (BitVec.eq_of_toNat_eq (by simpa using e))
    have := t.isLt
    rw [BitVec.toNat_sub]
    simp
    omega

/-! ### Placing an instruction -/

theorem composeWord_bytes (op : Word) : composeWord (op.extractLsb' 8 8) (op.extractLsb' 0 8) = op := by
  apply BitVec.eq_of_getLsbD_eq
  intro k hk
  simp only [composeWord, BitVec.getLsbD_append, BitVec.getLsbD_extractLsb']
  by_cases h8 : k < 8
  · simp [h8]
  · have : 8 + (k - 8) = k := by omega
    simp [h8, this, show k - 8 < 8 by omega]

/-- The instruction placed at PC is what the Cycle fetches (R52). -/
theorem fetchWord_placeWord (s : State) (op : Word) (hpc : s.pc.toNat + 1 ≤ 0xFFF) :
    fetchWord (placeWord op s) = .ok op := by
  rw [fetchWord_eq_ok]
  refine ⟨by simpa [placeWord] using hpc, ?_⟩
  have h1 : s.pc.toNat ≤ 0xFFF := by omega
  simp only [placeWord, wordBytes, pokeAll_pc, peek_pokeAll, List.length_cons, List.length_nil]
  rw [dif_pos (by omega), dif_pos (by omega)]
  simp [composeWord_bytes]

end Sys2Proof.Machine
end

