-- ==== Sys2Proof/Tests/Slice0.lean ====
section
/-! SUPPORT. Tests, each by decide. Expected results are the vectors of spec/95_test_vectors.md (their ids are named) or worked
by hand from the rule named; then the words of every constructor, the ill-formed terms, and one witness for every statement
that has hypotheses. -/

namespace Sys2Proof.Tests

open Sys2Proof.Machine

/-! ## Helpers -/

/-- The next state, if there is one. -/
def nextOf (o : Host.Outcome State Fault Refusal) : Option State :=
  match o with
  | .next t => some t
  | .fault _ => none
  | .refused _ => none

/-- What one Cycle of the word `op` at PC leaves of what `look` sees. -/
def after {α : Type} (op : Word) (s : State) (look : State → α) : Option α :=
  (nextOf (step (placeWord op s))).map look

/-- The reset state with some general registers set. -/
def regs : List (Reg × Byte) → State
  | [] => State.reset
  | (x, b) :: rest => (regs rest).setReg x b

/-- The sprite bytes of DS5 and DS6 at I = 0x300. -/
def sprite (bytes : List Byte) (s : State) : State := pokeAll 0x300 bytes (s.setI 0x300)

/-- The same machine under another value of P_DRAW_EDGE. -/
def withEdge (e : DrawEdge) (s : State) : State := { s with config := { s.config with drawEdge := e } }

/-- The same machine under P_FLAG_ORDER = dest_then_flag. -/
def flagLast (s : State) : State := { s with config := { s.config with flagOrder := .destThenFlag } }

/-- The same machine under P_SUBKEY0 = P_SUBKEYE = 8. -/
def key8 : Config := { defaultConfig with subkey0 := .eight, subkeyE := .eight }

/-- A screen that is all on. -/
def allOn : Framebuffer := Vector.replicate 32 0xFFFFFFFFFFFFFFFF

/-! ## Decoding: the words of every constructor, bit by bit from R89 -/

theorem test_decode_family0 :
    decodeTableWord 16 0b0000000011100000 = some .cls ∧ decodeTableWord 16 0b0000000011101110 = some .ret ∧
    decodeTableWord 16 0b0000000100100011 = some (.sys 0x123) := by decide

/-- DS2, R84: 0x0120 is CLS under key width 4 and SYS under 8; 0x0000 likewise (R130). -/
theorem test_decode_key_width_0 :
    decode defaultConfig 0x0120 = .cls ∧ decode key8 0x0120 = .sys 0x120 ∧
    decode defaultConfig 0x0000 = .cls ∧ decode key8 0x0000 = .sys 0 ∧ decode key8 0x00E0 = .cls ∧
    decode key8 0x00EE = .ret := by decide

theorem test_decode_jumps :
    decodeTableWord 16 0b0001001000110100 = some (.jp 0x234) ∧
    decodeTableWord 16 0b0010001000001000 = some (.call 0x208) ∧
    decodeTableWord 16 0b1011001100000000 = some (.jpV0 0x300) := by decide

theorem test_decode_skips :
    decodeTableWord 16 0b0011001100010010 = some (.seImm 3 0x12) ∧
    decodeTableWord 16 0b0100001100010010 = some (.sneImm 3 0x12) ∧
    decodeTableWord 16 0b0101000100100001 = some (.seReg 1 2) ∧
    decodeTableWord 16 0b1001000100100000 = some (.sneReg 1 2) := by decide

theorem test_decode_immediates :
    decodeTableWord 16 0b0110000000001010 = some (.ldImm 0 0x0A) ∧
    decodeTableWord 16 0b0111001000100000 = some (.addImm 2 0x20) ∧
    decodeTableWord 16 0b1100001100001111 = some (.rnd 3 0x0F) := by decide

theorem test_decode_family8 :
    decodeTableWord 16 0b1000000100110000 = some (.ldReg 1 3) ∧ decodeTableWord 16 0b1000000100100001 = some (.orReg 1 2) ∧
    decodeTableWord 16 0b1000000100100010 = some (.andReg 1 2) ∧
    decodeTableWord 16 0b1000000100100011 = some (.xorReg 1 2) ∧
    decodeTableWord 16 0b1000000000010100 = some (.addReg 0 1) ∧
    decodeTableWord 16 0b1000000100100101 = some (.subReg 1 2) ∧ decodeTableWord 16 0b1000000100100110 = some (.shr 1 2) ∧
    decodeTableWord 16 0b1000000100100111 = some (.subn 1 2) ∧ decodeTableWord 16 0b1000000100001110 = some (.shl 1 0) ∧
    decodeTableWord 16 0b1000000100101001 = some .nop8 := by decide

theorem test_decode_index_and_draw :
    decodeTableWord 16 0b1010001011110000 = some (.ldI 0x2F0) ∧
    decodeTableWord 16 0b1101000000010101 = some (.drw 0 1 5) := by decide

theorem test_decode_familyE :
    decodeTableWord 16 0b1110000110011110 = some (.skp 1) ∧ decodeTableWord 16 0b1110000110100001 = some (.sknp 1) ∧
    decodeTableWord 16 0b1110000100000000 = some .nopE ∧ decode key8 0xE10E = .nopE ∧
    decode defaultConfig 0xE10E = .skp 1 := by decide

theorem test_decode_familyF :
    decodeTableWord 16 0b1111001100000111 = some (.ldVxDt 3) ∧ decodeTableWord 16 0b1111001000001010 = some (.ldVxK 2) ∧
    decodeTableWord 16 0b1111000000010101 = some (.ldDtVx 0) ∧ decodeTableWord 16 0b1111000000011000 = some (.ldStVx 0) ∧
    decodeTableWord 16 0b1111001000011110 = some (.addI 2) ∧ decodeTableWord 16 0b1111000000101001 = some (.ldF 0) ∧
    decodeTableWord 16 0b1111001100110011 = some (.ldB 3) ∧ decodeTableWord 16 0b1111001001010101 = some (.ldMemVx 2) ∧
    decodeTableWord 16 0b1111001001100101 = some (.ldVxMem 2) ∧ decodeTableWord 16 0b1111000000000000 = some .nopF := by
  decide

theorem test_decode_truncated : (decodeBytes defaultConfig [0x60]).isOk = false := by decide

/-! ## Well-formedness: an ill-formed term for each check -/

theorem test_illformed_sys_is_cls : (Instr.sys 0x120).wellFormed defaultConfig = false := by decide

theorem test_illformed_sys_is_ret : (Instr.sys 0x0EE).wellFormed key8 = false := by decide

theorem test_wellformed_sys : (Instr.sys 0x123).wellFormed defaultConfig = true := by decide

/-- R7: P_FONT_BASE is at most 0x1B0. -/
theorem test_illegal_font_base :
    ¬ ({ defaultConfig with fontBase := 0x1B1 } : Config).legal ∧
    ({ defaultConfig with fontBase := 0x1B0 } : Config).legal := by decide

/-! ## Control transfer (CT vectors) -/

theorem test_jp : after 0x1234 State.reset (·.pc) = some 0x234 := by decide

theorem test_call :
    after 0x2300 State.reset (fun t => (t.pc, t.sp, t.stack[0])) = some (0x300, 1, 0x202) := by decide

/-- CT3. -/
theorem test_call_overflow :
    after 0x2300 { State.reset with sp := 16 } (fun t => (t.pc, t.sp, t.fault)) =
      some (0x200, 16, some ⟨.stackOverflow 16, 0x200, some 0x2300⟩) := by decide

theorem test_ret :
    after 0x00EE { State.reset with sp := 1, stack := State.reset.stack.set 0 0x204 } (fun t => (t.pc, t.sp)) =
      some (0x204, 0) := by decide

/-- CT4. -/
theorem test_ret_underflow :
    after 0x00EE State.reset (fun t => (t.pc, t.fault)) =
      some (0x200, some ⟨.stackUnderflow 0, 0x200, some 0x00EE⟩) := by decide

theorem test_seImm_skips : after 0x3342 (regs [(3, 0x42)]) (·.pc) = some 0x204 := by decide

theorem test_seImm_falls : after 0x3342 (regs [(3, 0x41)]) (·.pc) = some 0x202 := by decide

theorem test_sneImm : after 0x4342 (regs [(3, 0x41)]) (·.pc) = some 0x204 := by decide

theorem test_seReg : after 0x5121 (regs [(1, 7), (2, 7)]) (·.pc) = some 0x204 := by decide

theorem test_sneReg : after 0x9120 (regs [(1, 7), (2, 8)]) (·.pc) = some 0x204 := by decide

theorem test_jpV0_unmasked : after 0xBFFF (regs [(0, 0xFF)]) (·.pc) = some 0x10FE := by decide

theorem test_sys : after 0x0123 State.reset (·.pc) = some 0x202 := by decide

theorem test_nops :
    after 0x8128 State.reset (·.pc) = some 0x202 ∧ after 0xE100 State.reset (·.pc) = some 0x202 ∧
    after 0xF100 State.reset (·.pc) = some 0x202 := by decide

/-! ## ALU (AL vectors) -/

theorem test_ldImm : after 0x6A5C State.reset (·.reg 10) = some 0x5C := by decide

theorem test_addImm_no_flag :
    after 0x7101 (regs [(1, 0xFF), (15, 0x55)]) (fun t => (t.reg 1, t.reg 15)) = some (0, 0x55) := by decide

theorem test_ldReg : after 0x8120 (regs [(1, 0x11), (2, 0x22)]) (·.reg 1) = some 0x22 := by decide

theorem test_orReg :
    after 0x8121 (regs [(1, 0xF0), (2, 0x0F), (15, 9)]) (fun t => (t.reg 1, t.reg 15)) = some (0xFF, 9) := by decide

theorem test_andReg : after 0x8122 (regs [(1, 0xF0), (2, 0x3C)]) (·.reg 1) = some 0x30 := by decide

theorem test_xorReg : after 0x8123 (regs [(1, 0xFF), (2, 0x0F)]) (·.reg 1) = some 0xF0 := by decide

/-- AL7, W1. -/
theorem test_addReg_carry :
    after 0x8014 (regs [(0, 0xFF), (1, 1)]) (fun t => (t.reg 0, t.reg 15, t.pc)) = some (0, 1, 0x202) := by decide

/-- AL19 and its other order: 8F14 with VF = FF and V1 = 01. -/
theorem test_addReg_into_vf :
    after 0x8F14 (regs [(15, 0xFF), (1, 1)]) (·.reg 15) = some 0 ∧
    after 0x8F14 (flagLast (regs [(15, 0xFF), (1, 1)])) (·.reg 15) = some 1 := by decide

/-- AL9: the comparison is strict. -/
theorem test_subReg_equal :
    after 0x8125 (regs [(1, 5), (2, 5), (15, 7)]) (fun t => (t.reg 1, t.reg 15)) = some (0, 0) := by decide

/-- AL20, with VF as source and destination. -/
theorem test_subReg_into_vf :
    after 0x8F05 (regs [(0, 3), (15, 5)]) (·.reg 15) = some 2 ∧
    after 0x8F05 (flagLast (regs [(0, 3), (15, 5)])) (·.reg 15) = some 1 := by decide

theorem test_subn :
    after 0x8127 (regs [(1, 3), (2, 5)]) (fun t => (t.reg 1, t.reg 15)) = some (2, 1) := by decide

/-- AL15: Vy is ignored. -/
theorem test_shr :
    after 0x8126 (regs [(1, 0x80), (2, 0xFF), (15, 1)]) (fun t => (t.reg 1, t.reg 15)) = some (0x40, 0) := by decide

theorem test_shl :
    after 0x810E (regs [(1, 0x81)]) (fun t => (t.reg 1, t.reg 15)) = some (2, 1) := by decide

/-- AL22, and the draw is counted (log entry 2). -/
theorem test_rnd_counts : after 0xC300 State.reset (fun t => (t.draws, t.pc)) = some (1, 0x202) := by decide

/-! ## Index register and memory (MM vectors) -/

theorem test_ldI : after 0xA123 State.reset (·.i) = some 0x123 := by decide

theorem test_addI_wraps :
    after 0xF11E ((regs [(1, 2), (15, 7)]).setI 0xFFFF) (fun t => (t.i, t.reg 15)) = some (1, 7) := by decide

theorem test_ldF :
    after 0xF029 (regs [(0, 0x0A)]) (·.i) = some 0x082 ∧ after 0xF029 (regs [(0, 0x1F)]) (·.i) = some 0x0EB := by decide

theorem test_ldB :
    after 0xF333 ((regs [(3, 0xFE)]).setI 0x300) (fun t => (t.peek 0x300, t.peek 0x301, t.peek 0x302, t.i)) =
      some (2, 5, 4, 0x300) := by decide

/-- MM8. -/
theorem test_ldB_outOfRange :
    after 0xF333 ((regs [(3, 0xFE)]).setI 0xFFE) (fun t => (t.peek 0xFFE, t.pc, t.fault)) =
      some (0, 0x200, some ⟨.memOob 0x1000, 0x200, some 0xF333⟩) := by decide

theorem test_ldMemVx :
    after 0xF255 ((regs [(0, 1), (1, 2), (2, 3), (3, 9)]).setI 0x400)
      (fun t => (t.peek 0x400, t.peek 0x402, t.peek 0x403, t.i)) = some (1, 3, 0, 0x400) := by decide

theorem test_ldVxMem :
    after 0xF265 (pokeAll 0x300 [2, 5, 4, 7] (State.reset.setI 0x300)) (fun t => (t.reg 0, t.reg 2, t.reg 3, t.i)) =
      some (2, 4, 0, 0x300) := by decide

/-- MM12. -/
theorem test_ldVxMem_outOfRange :
    after 0xFF65 ((regs [(0, 3)]).setI 0xFF1) (fun t => (t.reg 0, t.fault)) =
      some (3, some ⟨.memOob 0x1000, 0x200, some 0xFF65⟩) := by decide

/-! ## Display (DS vectors) -/

theorem test_cls :
    after 0x00E0 { State.reset with fb := allOn } (fun t => (pixelOn t.fb 0, pixelOn t.fb 2047)) = some (false, false) := by
  decide

/-- DS3: the glyph 0. -/
theorem test_drw_glyph :
    after 0xD015 (State.reset.setI 0x050)
      (fun t => ((List.range 320).filter (pixelOn t.fb), t.reg 15)) =
    some ([0, 1, 2, 3, 64, 67, 128, 131, 192, 195, 256, 257, 258, 259], 0) := by decide

/-- DS5 in the three edge modes. -/
theorem test_drw_right_edge :
    after 0xD011 (sprite [0xFF] (regs [(0, 0x3C)])) (fun t => (List.range 128).filter (pixelOn t.fb)) =
      some [60, 61, 62, 63, 64, 65, 66, 67] ∧
    after 0xD011 (withEdge .clip (sprite [0xFF] (regs [(0, 0x3C)]))) (fun t => (List.range 128).filter (pixelOn t.fb)) =
      some [60, 61, 62, 63] ∧
    after 0xD011 (withEdge .wrap (sprite [0xFF] (regs [(0, 0x3C)]))) (fun t => (List.range 128).filter (pixelOn t.fb)) =
      some [0, 1, 2, 3, 60, 61, 62, 63] := by decide

/-- DS6 under flat: the fault, with row 0 not drawn. -/
theorem test_drw_bottom_edge :
    after 0xD012 (sprite [0x80, 0x80] (regs [(1, 0x1F)])) (fun t => (pixelOn t.fb (31 * 64), t.fault)) =
      some (false, some ⟨.drawOob 2048, 0x200, some 0xD012⟩) := by decide

/-! ## Timers and keypad (TK vectors) -/

theorem test_ldDtVx :
    after 0xF015 (regs [(0, 3)]) (·.dt) = some 2 ∧ after 0xF015 State.reset (·.dt) = some 0 := by decide

theorem test_ldStVx : after 0xF018 (regs [(0, 10)]) (·.st) = some 9 := by decide

theorem test_ldVxDt : after 0xF307 (State.reset.setDt 7) (fun t => (t.reg 3, t.dt)) = some (7, 6) := by decide

theorem test_skp :
    after 0xE19E (setKeys 0x20 (regs [(1, 5)])) (·.pc) = some 0x204 ∧ after 0xE19E (regs [(1, 5)]) (·.pc) = some 0x202 := by
  decide

/-- TK8. -/
theorem test_skp_keyIndex :
    after 0xE19E (regs [(1, 0x10)]) (·.fault) = some (some ⟨.keyIndex 0x10, 0x200, some 0xE19E⟩) := by decide

theorem test_sknp : after 0xE1A1 (regs [(1, 5)]) (·.pc) = some 0x204 := by decide

/-- TK9: no key is down. -/
theorem test_ldVxK_waits :
    after 0xF00A ((regs [(0, 9)]).setDt 2) (fun t => (t.pc, t.reg 0, t.dt)) = some (0x200, 9, 1) := by decide

/-- TK10: keys 3 and 9 are down. -/
theorem test_ldVxK_lowest : after 0xF20A (setKeys 0x208 State.reset) (fun t => (t.reg 2, t.pc)) = some (3, 0x202) := by
  decide

/-! ## The Cycle, boot and reset (CY vectors) -/

/-- CY2. -/
theorem test_fetchOob :
    (nextOf (step { State.reset with pc := 0xFFF })).map (fun t => (t.pc, t.fault)) =
      some (0xFFF, some ⟨.fetchOob 0xFFF, 0xFFF, none⟩) := by decide

/-- CY1: the last word is fetchable. -/
theorem test_last_word : after 0x1200 { State.reset with pc := 0xFFE } (·.pc) = some 0x200 := by decide

/-- CY4: a faulted machine does not change, not even its timers. -/
theorem test_faulted_stands :
    after 0x6055 { State.reset with fault := some ⟨.fetchOob 0, 0, none⟩, dt := 5 } (fun t => (t.pc, t.dt, t.reg 0)) =
      some (0x200, 5, 0) := by decide

/-- R31, R7: the default font and its base. -/
theorem test_default_font :
    State.reset.peek 0x04F = 0 ∧ State.reset.peek 0x050 = 0xF0 ∧ State.reset.peek 0x09F = 0x80 ∧
    State.reset.peek 0x0A0 = 0 := by decide

/-- W2: the source's own example, as the machine's first instruction. -/
theorem test_withFetchWord :
    (nextOf (step (State.reset.withFetchWord 16 0x600A))).map (fun t => (t.reg 0, t.pc)) = some (0x0A, 0x202) := by
  decide

/-- R60, R272: a ROM at 0x200. -/
theorem test_boot :
    ((boot defaultConfig (some [0x60, 0x0A])).peek 0x200, (boot defaultConfig (some [0x60, 0x0A])).peek 0x201) =
      (0x60, 0x0A) := by decide

/-- W9: 3585 bytes are rejected, and memory is unchanged. -/
theorem test_boot_rejected :
    loadRom (List.replicate 3585 7) State.reset = none ∧ (boot defaultConfig (some (List.replicate 3585 7))).mem = [] := by
  have h : 3584 < (List.replicate 3585 (7 : Byte)).length := by rw [List.length_replicate]; omega
  exact ⟨loadRom_of_gt h, by rw [boot_some_of_gt h]; rfl⟩

/-- R252, R254. -/
theorem test_host_reads :
    soundActive (State.reset.setSt 1) = true ∧ soundActive State.reset = false ∧
    pixelAt { State.reset with fb := flipPixel clearFramebuffer 130 } 2 2 = true := by decide

/-- Writing the reset contents lists nothing: the canonical form. -/
theorem test_canonical :
    (State.reset.poke 0x300 7).mem = [(0x300, 7)] ∧ ((State.reset.poke 0x300 7).poke 0x300 0).mem = [] ∧
    (State.reset.poke 0x050 0xF0).mem = [] := by decide

/-! ## Witnesses: the hypotheses of each statement can be met -/

/-- ResetIsLegal, at the highest legal font base. -/
theorem witness_legal : ({ defaultConfig with fontBase := 0x1B0 } : Config).legal := by decide

/-- EveryStepKeepsLegality, EveryCycleAnswersANextState, ParametersKeysAndFaultRecordStay. -/
theorem witness_inv_step : State.reset.Inv ∧ ∃ t, step State.reset = .next t :=
  ⟨⟨by decide, by decide, by decide⟩, _, rfl⟩

/-- The invariant with SP at its bound and a byte of memory listed. -/
theorem witness_inv_bound : ({ State.reset with sp := 16, mem := [(0xFFF, 1)] } : State).Inv :=
  ⟨by decide, by decide, by decide⟩

/-- BootedRomIsFetchedFirst, LoadCopiesOrRejects and RejectedLoadGoesOnFromTheResetState, at the largest ROM and one byte
above it. -/
theorem witness_rom_sizes :
    (List.replicate 3582 (0 : Byte)).length ≤ 3582 ∧ (List.replicate 3584 (0 : Byte)).length ≤ 3584 ∧
    3584 < (List.replicate 3585 (0 : Byte)).length := by
  refine ⟨?_, ?_, ?_⟩ <;> rw [List.length_replicate]
  omega

/-- EveryRunEndsInALegalState: a run with a loaded ROM, one after a rejected Load, and one that ends in a fault. -/
theorem witness_runs :
    defaultConfig.legal ∧
    (∃ t, FinalState defaultConfig (some [0x60, 0x0A]) [.keypad 1, .cycle] t ∧ t.reg 0 = 0x0A) ∧
    (∃ t, FinalState defaultConfig (some (List.replicate 3585 7)) [.cycle] t ∧ t.pc = 0x202) ∧
    (∃ t, runActions [.cycle] (boot defaultConfig (some [0x00, 0xEE])) = .next t ∧ t.fault ≠ none) := by
  have h : 3584 < (List.replicate 3585 (7 : Byte)).length := by rw [List.length_replicate]; omega
  refine ⟨by decide, ⟨_, ⟨rfl, rfl⟩, rfl⟩, ⟨_, ⟨by rw [boot_some_of_gt h]; rfl, rfl⟩, rfl⟩, ⟨_, rfl, by decide⟩⟩

/-- RefusedOnlyAboveSixteen and its boundary. -/
theorem witness_refused :
    (∃ r, exec .ret { State.reset with sp := 17 } = .refused r) ∧
    (∃ t, exec .ret { State.reset with sp := 16 } = .next t) := ⟨⟨_, rfl⟩, ⟨_, rfl⟩⟩

/-- FaultsExactlyOnTheListedConditions: SP at most 16 with a fault and without. -/
theorem witness_fault_conditions :
    FaultCause (.call 0) { State.reset with sp := 16 } ∧ ({ State.reset with sp := 16 } : State).sp.toNat ≤ 16 ∧
    ¬ FaultCause (.call 0) State.reset := by
  refine ⟨?_, ?_, ?_⟩ <;> simp [FaultCause, State.reset, State.resetWith]

/-- FrameOfEveryInstruction, StackTouchedOnlyByCallAndRet (CALL, RET). -/
theorem witness_exec_next :
    (∃ t, exec (.call 0x300) State.reset = .next t) ∧ (∃ t, exec .ret { State.reset with sp := 1 } = .next t) :=
  ⟨⟨_, rfl⟩, ⟨_, rfl⟩⟩

/-- StackTouchedOnlyByCallAndRet, SoundTimerIsWrittenButNeverRead, KeypadIsReadOnlyByKeyInstructions. -/
theorem witness_other_instruction :
    (Instr.cls ≠ .ret ∧ ∀ nnn, Instr.cls ≠ .call nnn) ∧ (∀ x, Instr.cls ≠ .ldStVx x) ∧
    (∀ x, Instr.cls ≠ .skp x) ∧ (∀ x, Instr.cls ≠ .sknp x) ∧ (∀ x, Instr.cls ≠ .ldVxK x) ∧
    ∃ t, exec (.ldStVx 0) State.reset = .next t := by
  simp [exec, execLdStVx]

/-- ParametersKeysAndFaultRecordStay: a faulted machine that steps. -/
theorem witness_faulted :
    ({ State.reset with fault := some ⟨.fetchOob 0, 0, none⟩ } : State).fault ≠ none ∧
    ∃ t, step { State.reset with fault := some ⟨.fetchOob 0, 0, none⟩ } = .next t := ⟨by decide, _, rfl⟩

/-- ReadAfterWrite, and StoredByteIsFetched for both bytes of the word, PC at its bound. -/
theorem witness_write :
    (∃ t, State.memWrite { State.reset with pc := 0xFFE } 0xFFE 7 = .ok t) ∧
    (∃ t, State.memWrite { State.reset with pc := 0xFFE } 0xFFF 7 = .ok t) ∧
    ({ State.reset with pc := 0xFFE } : State).pc.toNat + 1 ≤ 0xFFF := ⟨⟨_, rfl⟩, ⟨_, rfl⟩, by decide⟩

/-- AccessesFaultExactlyOutOfRange: both sides of both bounds. -/
theorem witness_bounds :
    (0xFFF : Nat) < 0x1000 ∧ 0xFFE < ({ State.reset with pc := 0xFFF } : State).pc.toNat ∧
    ({ State.reset with pc := 0xFFE } : State).pc.toNat ≤ 0xFFE := by decide

/-- DecodeOfEncode: every constructor but SYS is well-formed, and SYS for an unmapped key. -/
theorem witness_wellFormed :
    Instr.cls.wellFormed key8 = true ∧ (Instr.sys 0x120).wellFormed key8 = true ∧
    (Instr.sys 0x00F).wellFormed defaultConfig = true := by decide

/-- UnmappedKeysAreNoOps: one word for each of the four families, and the machine that fetches the first. -/
theorem witness_unmapped :
    UnmappedKey defaultConfig 0x0123 ∧ UnmappedKey key8 0x0120 ∧ UnmappedKey defaultConfig 0x8128 ∧
    UnmappedKey defaultConfig 0xE100 ∧ UnmappedKey key8 0xE10E ∧ UnmappedKey defaultConfig 0xF100 ∧
    (placeWord 0x0123 State.reset).fault = none ∧
    fetchWord (placeWord 0x0123 State.reset) = .ok 0x0123 := by
  refine ⟨?_, ?_, ?_, ?_, ?_, ?_, rfl, rfl⟩ <;> simp [UnmappedKey, defaultConfig, key8]

/-- StepRunsTheDecodedInstruction: an instruction that completes, one that faults, one that is refused. -/
theorem witness_step_runs :
    (decodeBytes defaultConfig [(0x60 : Byte), 0x0A] = .ok (.ldImm 0 0x0A, [])) ∧
    (placeWord 0x600A State.reset).fault = none ∧
    [(placeWord 0x600A State.reset).peek 0x200, (placeWord 0x600A State.reset).peek 0x201] = [(0x60 : Byte), 0x0A] ∧
    (∃ t, exec (.ldImm 0 0x0A) { placeWord 0x600A State.reset with pc := 0x202 } = .next t) ∧
    (∃ f, exec .ret { placeWord 0x00EE State.reset with pc := 0x202 } = .fault f) ∧
    (∃ r, exec .ret { placeWord 0x00EE State.reset with pc := 0x202, sp := 17 } = .refused r) :=
  ⟨rfl, rfl, rfl, ⟨_, rfl⟩, ⟨_, rfl⟩, ⟨_, rfl⟩⟩

/-- FaultDiscardsTheCycleAndIsRecorded: a fetch out of range, and an instruction that faults. -/
theorem witness_fault_recorded :
    0xFFF < ({ State.reset with pc := 0xFFF } : State).pc.toNat + 1 ∧
    fetchWord (placeWord 0x00EE State.reset) = .ok 0x00EE ∧
    ∃ f, exec (decode defaultConfig 0x00EE) { placeWord 0x00EE State.reset with pc := 0x202 } = .fault f :=
  ⟨by decide, rfl, _, rfl⟩

/-- TimersCountDownOncePerCycle, WrittenTimerCountsDownInItsOwnCycle, SoundTimerIsWrittenButNeverRead, PcAfterEveryCycle:
Cycles of LD DT, LD ST, LD Vx,DT and another instruction. -/
theorem witness_cycles :
    (∃ t, CycleOf (.ldDtVx 0) (placeWord 0xF015 State.reset) t) ∧
    (∃ t, CycleOf (.ldStVx 0) (placeWord 0xF018 State.reset) t) ∧
    (∃ t, CycleOf (.ldVxDt 3) (placeWord 0xF307 State.reset) t) ∧
    (∃ t, CycleOf (.ldImm 0 0x0A) (placeWord 0x600A State.reset) t) :=
  ⟨⟨_, 0xF015, rfl, rfl, rfl, rfl, rfl⟩, ⟨_, 0xF018, rfl, rfl, rfl, rfl, rfl⟩, ⟨_, 0xF307, rfl, rfl, rfl, rfl, rfl⟩,
    ⟨_, 0x600A, rfl, rfl, rfl, rfl, rfl⟩⟩

/-- StackTouchedOnlyByCallAndRet, last clause: RET with SP = 1 and two stacks that differ above entry 0. -/
theorem witness_stale_entries :
    (∀ j < 1, (Vector.replicate 16 (0 : Word)).toList[j]? = ((Vector.replicate 16 (0 : Word)).set 1 7).toList[j]?) ∧
    ∃ t, step { placeWord 0x00EE State.reset with sp := 1 } = .next t ∧ t.fault = none := by
  refine ⟨by decide, _, rfl, rfl⟩

/-- OnlyKeyWaitRollsPcBack: the key wait, and a jump to its own address. -/
theorem witness_rollback :
    (∃ t, CycleOf (.ldVxK 2) (placeWord 0xF20A State.reset) t ∧ t.pc = (placeWord 0xF20A State.reset).pc) ∧
    (∃ t, CycleOf (.jp 0x200) (placeWord 0x1200 State.reset) t ∧ t.pc = (placeWord 0x1200 State.reset).pc) :=
  ⟨⟨_, ⟨0xF20A, rfl, rfl, rfl, rfl, rfl⟩, rfl⟩, ⟨_, ⟨0x1200, rfl, rfl, rfl, rfl, rfl⟩, rfl⟩⟩

/-- W3's run: a self-jump with DT = 5. -/
def idle : Nat → State
  | 0 => placeWord 0x1200 (State.reset.setDt 5)
  | k + 1 => (nextOf (step (idle k))).getD State.reset

/-- DelayTimerCountsCycles: two Cycles of it. -/
theorem witness_delay : ∀ k < 2, CycleOf (.jp 0x200) (idle k) (idle (k + 1)) ∧ ∀ x, Instr.jp 0x200 ≠ .ldDtVx x := by
  intro k hk
  refine ⟨?_, by simp⟩
  match k, hk with
  | 0, _ => exact ⟨0x1200, rfl, rfl, rfl, rfl, rfl⟩
  | 1, _ => exact ⟨0x1200, rfl, rfl, rfl, rfl, rfl⟩

/-- CallPushesTheReturnAddress, RetPopsTheReturnAddress: both clauses at their bounds. -/
theorem witness_depths :
    ({ State.reset with sp := 15 } : State).sp.toNat < 16 ∧ ({ State.reset with sp := 16 } : State).sp.toNat = 16 ∧
    0 < ({ State.reset with sp := 16 } : State).sp.toNat ∧ State.reset.sp.toNat = 0 := by decide

/-- RetAfterCallRestoresPc. -/
theorem witness_call_ret :
    ∃ t, exec (.call 0x300) { State.reset with sp := 15 } = .next t ∧ t.sp = 16 := ⟨_, rfl, rfl⟩

/-- AddSetsCarry and the other flag writers, with VF as destination under both orders, and not. -/
theorem witness_flag_orders :
    State.reset.config.flagOrder = .flagThenDest ∧ (flagLast State.reset).config.flagOrder = .destThenFlag ∧
    (0 : Reg) ≠ 15 := by decide

/-- BcdDigitsAreStored, RegistersAreDumped, RegistersAreLoaded: both sides of the bound. -/
theorem witness_ranges :
    (State.reset.setI 0xFFD).i.toNat + 2 ≤ 0xFFF ∧ 0xFFF < (State.reset.setI 0xFFE).i.toNat + 2 ∧
    (State.reset.setI 0xFF0).i.toNat + (15 : Reg).val ≤ 0xFFF ∧
    0xFFF < (State.reset.setI 0xFF1).i.toNat + (15 : Reg).val := by decide

/-- LoadRestoresADump: the state right after the dump. -/
theorem witness_dump :
    ∃ t, exec (.ldMemVx 1) ((regs [(0, 1), (1, 2)]).setI 0x400) = .next t ∧ t.i = 0x400 ∧ t.peek 0x401 = 2 :=
  ⟨_, rfl, rfl, rfl⟩

/-- DrawFlipsCoveredPixelsAndDetectsCollision: DS3's glyph does not fault and covers pixel 0, which is off; with every pixel on,
it collides. -/
theorem witness_draw :
    ¬ FaultCause (.drw 0 1 1) (State.reset.setI 0x050) ∧ Covers (State.reset.setI 0x050) 0 1 1 0 ∧
    ¬ Covers (State.reset.setI 0x050) 0 1 1 100 ∧
    Covers { State.reset.setI 0x050 with fb := allOn } 0 1 1 0 ∧
    pixelOn ({ State.reset.setI 0x050 with fb := allOn } : State).fb 0 = true := by
  have hx : ∀ x : Reg, (State.reset.setI 0x050).reg x = 0 := by decide
  have hi : (State.reset.setI 0x050).i.toNat = 0x050 := by decide
  have he : (State.reset.setI 0x050).config.drawEdge = .flat := rfl
  refine ⟨?_, ⟨0, 0, ⟨by decide, by decide, by decide⟩, by decide, by decide⟩, ?_,
    ⟨0, 0, ⟨by decide, by decide, by decide⟩, by decide, by decide⟩, by decide⟩
  · rintro (⟨row, hr, h⟩ | ⟨row, col, ⟨hr, hc, _⟩, _, h⟩)
    · rw [hi] at h
      have : row < 1 := hr
      omega
    · simp only [spriteRow, spriteCol, hx] at h
      have : row < 1 := hr
      simp at h
      omega
  · rintro ⟨row, col, ⟨hr, hc, _⟩, h⟩
    simp only [Targets, he, spriteRow, spriteCol, hx] at h
    have : row < 1 := hr
    simp at h
    omega

/-- DrawReportsItsFirstFault: both kinds of fault. -/
theorem witness_draw_faults :
    (∃ f, exec (.drw 0 1 15) (State.reset.setI 0xFF5) = .fault f) ∧
    (∃ f, exec (.drw 0 1 2) (sprite [0x80, 0x80] (regs [(1, 0x1F)])) = .fault f) := ⟨⟨_, rfl⟩, ⟨_, rfl⟩⟩

/-- DrawingTwiceRestoresTheScreen. -/
theorem witness_draw_twice : ∃ t, exec (.drw 0 1 5) (State.reset.setI 0x050) = .next t := ⟨_, rfl⟩

/-- SpritePositionsGoToDistinctPixels: the last position on the screen. -/
theorem witness_place : place .flat (63 + 0) (31 + 0) = .pixel 2047 ∧ place .wrap (63 + 7) (31 + 14) = .pixel 838 ∧
    place .clip (56 + 7) (17 + 14) = .pixel 2047 := by decide

/-- SkipsOnImmediate, SkipsOnRegisters: equal and unequal. -/
theorem witness_compare : (regs [(3, 0x42)]).reg 3 = 0x42 ∧ (regs [(3, 0x42)]).reg 3 ≠ (regs [(3, 0x42)]).reg 4 := by
  decide

/-- SkipsOnKeys: the last key, down and up, and one index above. -/
theorem witness_keys :
    ((regs [(1, 15)]).reg 1).toNat ≤ 15 ∧ (setKeys 0x8000 (regs [(1, 15)])).key 15 = true ∧
    (regs [(1, 15)]).key 15 = false ∧ 15 < ((regs [(1, 16)]).reg 1).toNat := by decide

/-- KeyWaitTakesTheLowestKey: key 15 alone, no key, and a Cycle that waits. -/
theorem witness_key_wait :
    (∃ t, CycleOf (.ldVxK 2) (placeWord 0xF20A State.reset) t) ∧
    (setKeys 0x8000 State.reset).key 15 = true ∧ (∀ j < 15, (setKeys 0x8000 State.reset).key j = false) ∧
    (∀ k < 16, State.reset.key k = false) := ⟨⟨_, 0xF20A, rfl, rfl, rfl, rfl, rfl⟩, by decide, by decide, by decide⟩

/-- FetchIsBigEndian, FaultedMachineNeverChanges and TwelveFamiliesMapOneToOne hold of every such state and operand. -/
theorem witness_fetch : State.reset.pc.toNat + 1 ≤ 0xFFF := by decide

end Sys2Proof.Tests
end

section
/-! SUPPORT. The next states of the meanings that can fault, be refused or branch, guards included, and what no
execute step changes. -/

namespace Sys2Proof.Machine

variable {s t : State}

/-! ### The meanings with more than one outcome, by their next state -/

/-- RET answers a next state exactly with SP from 1 to 16 (R131, log entry 4). -/
theorem execRet_eq_next :
    execRet s = .next t ↔ s.sp ≠ 0 ∧ ∃ h : (s.sp - 1).toNat < 16, t = s.pop h := by
  unfold execRet
  split
  · next h0 => simp [h0, raiseFault]
  · next h0 =>
    split
    · next h => exact ⟨fun e => ⟨h0, h, (Host.Outcome.next.inj e).symm⟩, fun ⟨_, _, e⟩ => e ▸ rfl⟩
    · next h => exact ⟨nofun, fun ⟨_, h', _⟩ => absurd h' h⟩

/-- CALL answers a next state exactly with SP below 16 (R132, log entry 4). -/
theorem execCall_eq_next {nnn : BitVec 12} :
    execCall nnn s = .next t ↔ ∃ h : s.sp.toNat < 16, t = (s.push h s.pc).setPc (zextAddr nnn) := by
  unfold execCall
  split
  · next h16 => simp [h16, raiseFault]
  · split
    · next h => simp [h, eq_comm (a := t)]
    · next h => simp [h]

/-- A skip on a key answers a next state exactly with V[x] at most 15 (R220, R221). -/
theorem skipOnKey_eq_next {down : Bool} {x : Reg} :
    skipOnKey down x s = .next t ↔
      (s.reg x).toNat ≤ 15 ∧ t = s.skipIf (s.key (s.reg x).toNat == down) := by
  unfold skipOnKey
  split
  · next h => simp [raiseFault]; omega
  · next h => simp [Nat.not_lt.1 h, eq_comm (a := t)]

/-- The key wait takes the lowest pressed key, or goes back to its own address (R223). -/
theorem execLdVxK_eq_next {x : Reg} :
    execLdVxK x s = .next t ↔
      (∃ k, firstKey s = some k ∧ t = s.setReg x (BitVec.ofNat 8 k.val)) ∨
      (firstKey s = none ∧ t = s.setPc (s.pc - 2)) := by
  unfold execLdVxK
  cases firstKey s <;> simp [eq_comm (a := t)]

/-- DRW answers a next state exactly when the whole sprite is drawn (R201, R203). -/
theorem execDrw_eq_next {x y : Reg} {n : BitVec 4} :
    execDrw x y n s = .next t ↔
      ∃ k, drawSprite x y n s = .ok k ∧ t = (s.setFb k.fb).setReg 15 (flagByte k.hit) := by
  unfold execDrw
  cases drawSprite x y n s <;> simp [raiseFault, eq_comm (a := t)]

/-- A store of consecutive bytes completes exactly when they all lie at or below 0xFFF (R55). -/
theorem memWriteAll_eq_ok {a : Nat} {bs : List Byte} :
    memWriteAll a bs s = .ok t ↔ (bs = [] ∨ a + bs.length ≤ 0x1000) ∧ t = pokeAll a bs s := by
  rw [memWriteAll_eq]
  by_cases h : bs = [] ∨ a + bs.length ≤ 0x1000 <;> simp [h, eq_comm (a := t)]

/-- LD B answers a next state exactly when I + 2 is at most 0xFFF (R183, R55). -/
theorem execLdB_eq_next {x : Reg} :
    execLdB x s = .next t ↔
      s.indexAddr 0 + 3 ≤ 0x1000 ∧ t = pokeAll (s.indexAddr 0) (bcdDigits (s.reg x)) s := by
  simp [execLdB, conclude_eq_next, memWriteAll_eq_ok, bcdDigits]

/-- LD [I], Vx answers a next state exactly when I + x is at most 0xFFF (R184, R55). -/
theorem execLdMemVx_eq_next {x : Reg} :
    execLdMemVx x s = .next t ↔
      s.indexAddr 0 + (x.val + 1) ≤ 0x1000 ∧ t = pokeAll (s.indexAddr 0) (s.regsUpTo x) s := by
  have hne : s.regsUpTo x ≠ [] := List.ne_nil_of_length_pos (by simp [length_regsUpTo])
  simp [execLdMemVx, conclude_eq_next, memWriteAll_eq_ok, length_regsUpTo, hne]

/-- LD Vx, [I] answers a next state exactly when I + x is at most 0xFFF (R185, R55). -/
theorem execLdVxMem_eq_next {x : Reg} :
    execLdVxMem x s = .next t ↔
      s.indexAddr 0 + (x.val + 1) ≤ 0x1000 ∧
      t = State.setRegsFrom 0 ((List.range (x.val + 1)).map (fun k => s.peek (s.indexAddr 0 + k))) s := by
  unfold execLdVxMem
  rw [memReadAll_eq]
  by_cases h : s.indexAddr 0 + (x.val + 1) ≤ 0x1000 <;> simp [h, raiseFault, eq_comm (a := t)]

/-! ### What no execute step changes -/

/-- No execute step changes the parameters, the keypad or the fault record (R7, R30, R34). -/
theorem exec_keeps_config_keys_fault {i : Instr} (h : exec i s = .next t) :
    t.config = s.config ∧ t.keys = s.keys ∧ t.fault = s.fault := by
  cases i with
  | ret => obtain ⟨_, _, rfl⟩ := execRet_eq_next.1 h; simp
  | call nnn => obtain ⟨_, rfl⟩ := execCall_eq_next.1 h; simp
  | skp x | sknp x => obtain ⟨_, rfl⟩ := skipOnKey_eq_next.1 h; simp
  | ldVxK x => obtain ⟨_, _, rfl⟩ | ⟨_, rfl⟩ := execLdVxK_eq_next.1 h <;> simp
  | drw x y n => obtain ⟨_, _, rfl⟩ := execDrw_eq_next.1 h; simp
  | ldB x => obtain ⟨_, rfl⟩ := execLdB_eq_next.1 h; simp
  | ldMemVx x => obtain ⟨_, rfl⟩ := execLdMemVx_eq_next.1 h; simp
  | ldVxMem x => obtain ⟨_, rfl⟩ := execLdVxMem_eq_next.1 h; simp
  | _ =>
    -- every other meaning answers one next state, made of the operations of Laws/State and Laws/Flags
    obtain rfl := Host.Outcome.next.inj h
    simp

/-! ### The statements of 00_scope.md -/

/-- Memory with no listed cell, as at reset, is in the canonical form, the model's representation (log entry 7). -/
theorem memory_wf_nil (c : Config) : Memory.wf c [] :=
  ⟨List.Pairwise.nil, fun _ hp => absurd hp List.not_mem_nil⟩

/-- Settles O2: the parameters are the given ones, SP is 0 and no cell of memory is listed. -/
theorem resetIsLegal : Obligations.ResetIsLegal := by
  intro c hc
  exact { config := hc, sp := Nat.zero_le 16, mem := memory_wf_nil c }

/-- Settles O13: a step leaves a faulted machine as it is, records a fault on the state it began in, or ends with the
timer post-step of an execute step, which keeps all three. -/
theorem parametersKeysAndFaultRecordStay : Obligations.ParametersKeysAndFaultRecordStay := by
  intro s t h
  obtain ⟨_, rfl⟩ | ⟨hnone, _, rfl⟩ | ⟨op, hnone, _, hend⟩ := step_cases h
  · exact ⟨rfl, rfl, fun _ => rfl⟩
  · exact ⟨rfl, rfl, fun hf => absurd hnone hf⟩
  · obtain ⟨u, hu, rfl⟩ | ⟨f, _, rfl⟩ := hend
    · obtain ⟨hconfig, hkeys, _⟩ := exec_keeps_config_keys_fault hu
      exact ⟨by simpa using hconfig, by simpa using hkeys, fun hf => absurd hnone hf⟩
    · exact ⟨rfl, rfl, fun hf => absurd hnone hf⟩

end Sys2Proof.Machine
end

section
/-! SUPPORT. SP, the call stack, the sound timer and the keypad are each touched by few instructions (10_state.md R25,
R26, R28, R30): every other instruction does the same whatever they hold. -/

namespace Sys2Proof.Machine

/-! ### Changing the pieces of state that few instructions touch -/

/-- A change of SP, the call stack, the sound timer and the keypad; `id` leaves a piece as it is. -/
structure Change where
  sp : Word → Word := id
  stack : Vector Word 16 → Vector Word 16 := id
  st : Byte → Byte := id
  keys : BitVec 16 → BitVec 16 := id

/-- The state with the change made. -/
def Change.apply (c : Change) (s : State) : State :=
  { s with sp := c.sp s.sp, stack := c.stack s.stack, st := c.st s.st, keys := c.keys s.keys }

/-- The change leaves as they are the pieces that instruction `i` touches: SP and the stack for CALL and RET (R25, R26),
ST for LD ST,Vx (R28), the keypad for SKP, SKNP and LD Vx,K (R30). -/
structure Change.Avoids (c : Change) (i : Instr) : Prop where
  stack : (i = .ret ∨ ∃ nnn, i = .call nnn) → c.sp = id ∧ c.stack = id
  st : (∃ x, i = .ldStVx x) → c.st = id
  keys : ((∃ x, i = .skp x) ∨ (∃ x, i = .sknp x) ∨ ∃ x, i = .ldVxK x) → c.keys = id

section
variable (c : Change) (s : State)

/-! ### What is read is not changed -/

@[simp] theorem Change.reg_apply (x : Reg) : (c.apply s).reg x = s.reg x := rfl
@[simp] theorem Change.memRead_apply (a : Nat) : (c.apply s).memRead a = s.memRead a := rfl
@[simp] theorem Change.peek_apply (a : Nat) : (c.apply s).peek a = s.peek a := rfl
@[simp] theorem Change.indexAddr_apply (k : Nat) : (c.apply s).indexAddr k = s.indexAddr k := rfl
@[simp] theorem Change.regsUpTo_apply (x : Reg) : (c.apply s).regsUpTo x = s.regsUpTo x := rfl
@[simp] theorem Change.config_apply : (c.apply s).config = s.config := rfl

/-! ### The shared operations commute with a change -/

theorem Change.skipIf_apply (b : Bool) : (c.apply s).skipIf b = c.apply (s.skipIf b) := by
  cases b <;> rfl

theorem Change.writeResultAndFlag_apply (x : Reg) (res : Byte) (flag : Bool) :
    writeResultAndFlag x res flag (c.apply s) = c.apply (writeResultAndFlag x res flag s) := by
  unfold writeResultAndFlag
  rw [c.config_apply]
  cases s.config.flagOrder <;> rfl

theorem Change.poke_apply (a : Nat) (b : Byte) : (c.apply s).poke a b = c.apply (s.poke a b) := by
  unfold State.poke
  split <;> rfl

theorem Change.pokeAll_apply (bs : List Byte) (a : Nat) : pokeAll a bs (c.apply s) = c.apply (pokeAll a bs s) := by
  induction bs generalizing a s with
  | nil => rfl
  | cons b bs ih => simp only [pokeAll, c.poke_apply, ih]

theorem Change.memWriteAll_apply (bs : List Byte) (a : Nat) :
    memWriteAll a bs (c.apply s) = (memWriteAll a bs s).map c.apply := by
  simp only [memWriteAll_eq, c.pokeAll_apply]
  split <;> rfl

theorem Change.memReadAll_apply (n a : Nat) : memReadAll (c.apply s) a n = memReadAll s a n := by
  simp only [memReadAll_eq, c.peek_apply]

theorem Change.setRegsFrom_apply (bs : List Byte) (k : Nat) :
    State.setRegsFrom k bs (c.apply s) = c.apply (State.setRegsFrom k bs s) := by
  induction bs generalizing k s with
  | nil => rfl
  | cons b bs ih =>
    by_cases h : k < 16
    · simp only [State.setRegsFrom, h, dite_true, ← ih]; rfl
    · simp only [State.setRegsFrom, h, dite_false, ih]

theorem Change.drawRows_apply (x0 y0 : Nat) (rows : List Nat) (k : Canvas) :
    drawRows (c.apply s) x0 y0 rows k = drawRows s x0 y0 rows k := by
  induction rows generalizing k with
  | nil => rfl
  | cons row rows ih => simp only [drawRows, c.memRead_apply, c.indexAddr_apply, c.config_apply, ih]

theorem Change.drawSprite_apply (x y : Reg) (n : BitVec 4) : drawSprite x y n (c.apply s) = drawSprite x y n s :=
  c.drawRows_apply s _ _ _ _

theorem conclude_map (g : State → State) (r : Except Fault State) :
    conclude (r.map g) = mapNext g (conclude r) := by
  cases r <;> rfl

/-! ### The meanings with more than one outcome -/

theorem Change.execDrw_apply (x y : Reg) (n : BitVec 4) :
    execDrw x y n (c.apply s) = mapNext c.apply (execDrw x y n s) := by
  unfold execDrw
  rw [c.drawSprite_apply]
  cases drawSprite x y n s <;> rfl

theorem Change.execLdB_apply (x : Reg) : execLdB x (c.apply s) = mapNext c.apply (execLdB x s) := by
  simp only [execLdB, c.indexAddr_apply, c.reg_apply, c.memWriteAll_apply, conclude_map]

theorem Change.execLdMemVx_apply (x : Reg) : execLdMemVx x (c.apply s) = mapNext c.apply (execLdMemVx x s) := by
  simp only [execLdMemVx, c.indexAddr_apply, c.regsUpTo_apply, c.memWriteAll_apply, conclude_map]

theorem Change.execLdVxMem_apply (x : Reg) : execLdVxMem x (c.apply s) = mapNext c.apply (execLdVxMem x s) := by
  unfold execLdVxMem
  rw [c.indexAddr_apply, c.memReadAll_apply]
  cases memReadAll s (s.indexAddr 0) (x.val + 1) with
  | error f => rfl
  | ok bytes => exact congrArg Host.Outcome.next (c.setRegsFrom_apply s bytes 0)

theorem Change.skipOnKey_apply (down : Bool) (x : Reg) (hkeys : c.keys = id) :
    skipOnKey down x (c.apply s) = mapNext c.apply (skipOnKey down x s) := by
  have hkey : ∀ k, (c.apply s).key k = s.key k := fun k => by simp [State.key, Change.apply, hkeys]
  simp only [skipOnKey, c.reg_apply, hkey, c.skipIf_apply]
  split <;> rfl

theorem Change.execLdVxK_apply (x : Reg) (hkeys : c.keys = id) :
    execLdVxK x (c.apply s) = mapNext c.apply (execLdVxK x s) := by
  have hfirst : firstKey (c.apply s) = firstKey s := by simp [firstKey, State.key, Change.apply, hkeys]
  unfold execLdVxK
  rw [hfirst]
  cases firstKey s <;> rfl

theorem Change.execRet_apply (hsp : c.sp = id) (hstack : c.stack = id) :
    execRet (c.apply s) = mapNext c.apply (execRet s) := by
  obtain ⟨_, _, _, _⟩ := c
  subst hsp hstack
  simp only [execRet, apply_ite (mapNext _), apply_dite (mapNext _)]
  rfl

theorem Change.execCall_apply (nnn : BitVec 12) (hsp : c.sp = id) (hstack : c.stack = id) :
    execCall nnn (c.apply s) = mapNext c.apply (execCall nnn s) := by
  obtain ⟨_, _, _, _⟩ := c
  subst hsp hstack
  simp only [execCall, apply_ite (mapNext _), apply_dite (mapNext _)]
  rfl

/-! ### Every instruction -/

/-- An instruction does the same before and after a change of pieces of state it does not touch. -/
theorem exec_apply {i : Instr} (hi : c.Avoids i) : exec i (c.apply s) = mapNext c.apply (exec i s) := by
  cases i with
  | ret =>
    obtain ⟨hsp, hstack⟩ := hi.stack (.inl rfl)
    exact c.execRet_apply s hsp hstack
  | call nnn =>
    obtain ⟨hsp, hstack⟩ := hi.stack (.inr ⟨nnn, rfl⟩)
    exact c.execCall_apply s nnn hsp hstack
  | seImm | sneImm | seReg | sneReg => exact congrArg Host.Outcome.next (c.skipIf_apply s _)
  | addReg | subReg | shr | subn | shl => exact congrArg Host.Outcome.next (c.writeResultAndFlag_apply s _ _ _)
  | drw x y n => exact c.execDrw_apply s x y n
  | skp x => exact c.skipOnKey_apply s true x (hi.keys (.inl ⟨x, rfl⟩))
  | sknp x => exact c.skipOnKey_apply s false x (hi.keys (.inr (.inl ⟨x, rfl⟩)))
  | ldVxK x => exact c.execLdVxK_apply s x (hi.keys (.inr (.inr ⟨x, rfl⟩)))
  | ldStVx x =>
    have hst : c.st = id := hi.st ⟨x, rfl⟩
    obtain ⟨_, _, _, _⟩ := c
    subst hst
    rfl
  | ldB x => exact c.execLdB_apply s x
  | ldMemVx x => exact c.execLdMemVx_apply s x
  | ldVxMem x => exact c.execLdVxMem_apply s x
  | _ => rfl -- one next state, made of updates of single fields

end

/-! ### The changes of one piece -/

section
variable {i : Instr} {s t : State}

/-- SP and the stack may be changed under every instruction but CALL and RET. -/
theorem avoids_of_ne_ret_call (hret : i ≠ .ret) (hcall : ∀ nnn, i ≠ .call nnn) (p : Word → Word)
    (k : Vector Word 16 → Vector Word 16) : Change.Avoids { sp := p, stack := k } i where
  stack := fun h => h.elim (absurd · hret) fun ⟨nnn, e⟩ => absurd e (hcall nnn)
  st := fun _ => rfl
  keys := fun _ => rfl

/-- ST may be changed under every instruction but LD ST,Vx. -/
theorem avoids_of_ne_ldStVx (hi : ∀ x, i ≠ .ldStVx x) (b : Byte → Byte) : Change.Avoids { st := b } i where
  stack := fun _ => ⟨rfl, rfl⟩
  st := fun ⟨x, e⟩ => absurd e (hi x)
  keys := fun _ => rfl

/-- The keypad may be changed under every instruction but SKP, SKNP and LD Vx,K. -/
theorem avoids_of_ne_skp_sknp_ldVxK (hskp : ∀ x, i ≠ .skp x) (hsknp : ∀ x, i ≠ .sknp x)
    (hwait : ∀ x, i ≠ .ldVxK x) (k : BitVec 16 → BitVec 16) : Change.Avoids { keys := k } i where
  stack := fun _ => ⟨rfl, rfl⟩
  st := fun _ => rfl
  keys := fun
    | .inl ⟨x, e⟩ => absurd e (hskp x)
    | .inr (.inl ⟨x, e⟩) => absurd e (hsknp x)
    | .inr (.inr ⟨x, e⟩) => absurd e (hwait x)

/-- A change that is none to the state before an instruction, in pieces the instruction does not touch, is none to its
next state: with a change to the value a piece already has, the instruction keeps that value. -/
theorem exec_keeps_fixed {c : Change} (hi : c.Avoids i) (hs : c.apply s = s) (h : exec i s = .next t) :
    c.apply t = t := by
  have hc := exec_apply c s hi
  rw [hs, h] at hc
  exact (Host.Outcome.next.inj hc).symm

/-- SP and the stack keep their values under every instruction but CALL and RET. -/
theorem exec_keeps_sp_stack (hret : i ≠ .ret) (hcall : ∀ nnn, i ≠ .call nnn) (h : exec i s = .next t) :
    t.sp = s.sp ∧ t.stack = s.stack := by
  have ht := exec_keeps_fixed (avoids_of_ne_ret_call hret hcall (fun _ => s.sp) (fun _ => s.stack)) rfl h
  exact ⟨(congrArg State.sp ht).symm, (congrArg State.stack ht).symm⟩

/-- ST keeps its value under every instruction but LD ST,Vx. -/
theorem exec_keeps_st (hi : ∀ x, i ≠ .ldStVx x) (h : exec i s = .next t) : t.st = s.st :=
  (congrArg State.st (exec_keeps_fixed (avoids_of_ne_ldStVx hi (fun _ => s.st)) rfl h)).symm

/-- A Cycle ends with the timer post-step of what its instruction's execute step answers (R111, R116). -/
theorem CycleOf.exec_eq_next (h : CycleOf i s t) :
    ∃ u, exec i (preIncrement s) = .next u ∧ t = timerPostStep u := by
  obtain ⟨op, hnone, hop, rfl, hstep, hfault⟩ := h
  obtain ⟨hf, _⟩ | ⟨_, _, rfl⟩ | ⟨op', _, hop', ⟨u, hu, rfl⟩ | ⟨f, _, rfl⟩⟩ := step_cases hstep
  · exact absurd hnone hf
  · simp at hfault
  · obtain rfl : op' = op := Except.ok.inj (hop'.symm.trans hop)
    exact ⟨u, hu, rfl⟩
  · simp at hfault

end

/-! ### The sound timer and the keypad -/

/-- Settles O11: every instruction but LD ST,Vx commutes with a change of ST, and the post-step counts down what it
left. -/
theorem soundTimerIsWrittenButNeverRead : Obligations.SoundTimerIsWrittenButNeverRead := by
  refine ⟨fun i s b hi => ?_, fun x s b => rfl, fun x s t h => ?_, fun i s t h hi => ?_, fun s => ?_⟩
  · exact exec_apply { st := fun _ => b } s (avoids_of_ne_ldStVx hi _)
  · obtain rfl := Host.Outcome.next.inj h
    rfl
  · obtain ⟨u, hu, rfl⟩ := h.exec_eq_next
    rw [timerPostStep_st, toNat_countDown, exec_keeps_st hi hu, preIncrement_st]
  · simp [soundActive]

/-- Settles O12: every instruction but the three key instructions commutes with a change of the keypad. -/
theorem keypadIsReadOnlyByKeyInstructions : Obligations.KeypadIsReadOnlyByKeyInstructions := by
  refine ⟨fun i s k hskp hsknp hwait => ?_, fun i s t h => ?_, fun k s j _ => rfl⟩
  · exact exec_apply { keys := fun _ => k } s (avoids_of_ne_skp_sknp_ldVxK hskp hsknp hwait _)
  · obtain ⟨_, hkeys, _⟩ := exec_keeps_config_keys_fault h
    exact hkeys

/-! ### The stack -/

/-- Two stacks that hold the same entries below `n`. -/
def AgreeBelow (n : Nat) (k l : Vector Word 16) : Prop := ∀ j < n, k.toList[j]? = l.toList[j]?

section
variable {i : Instr} {s t : State} {k : Vector Word 16} {f : Fault}

theorem AgreeBelow.mono {m n : Nat} {l : Vector Word 16} (h : AgreeBelow n k l) (hmn : m ≤ n) : AgreeBelow m k l :=
  fun j hj => h j (Nat.lt_of_lt_of_le hj hmn)

theorem AgreeBelow.getElem_eq {n j : Nat} {l : Vector Word 16} (h : AgreeBelow n k l) (hj : j < n) (hj16 : j < 16) :
    k[j] = l[j] := by
  simpa [hj16] using h j hj

/-- Stacks that agree below `n` agree below `n + 1` once the same word is written at `n`, as CALL does. -/
theorem AgreeBelow.set {n : Nat} {l : Vector Word 16} (h : AgreeBelow n k l) (hn : n < 16) (w : Word) :
    AgreeBelow (n + 1) (k.set n w) (l.set n w) := by
  intro j hj
  obtain hlt | rfl := Nat.lt_succ_iff_lt_or_eq.1 hj
  · simpa [Vector.toList_set, List.getElem?_set_ne (Nat.ne_of_gt hlt)] using h j hlt
  · simp [Vector.toList_set, hn]

/-- SP after RET, which needs it nonzero, as a number. -/
theorem toNat_sp_sub_one (h : s.sp ≠ 0) : 0 < s.sp.toNat ∧ (s.sp - 1).toNat = s.sp.toNat - 1 := by
  bv_omega

/-- RET faults exactly with SP at 0 (R131). -/
theorem execRet_eq_fault : execRet s = .fault f ↔ s.sp = 0 ∧ f = .stackUnderflow s.sp := by
  unfold execRet
  split
  · next h => simp [h, raiseFault, eq_comm (a := f)]
  · next h => split <;> exact ⟨nofun, fun e => absurd e.1 h⟩

/-- CALL faults exactly with SP at 16 (R132). -/
theorem execCall_eq_fault {nnn : BitVec 12} : execCall nnn s = .fault f ↔ s.sp = 16 ∧ f = .stackOverflow s.sp := by
  unfold execCall
  split
  · next h => simp [h, raiseFault, eq_comm (a := f)]
  · next h => split <;> exact ⟨nofun, fun e => absurd e.1 h⟩

/-- Every instruction but CALL and RET commutes with a change of the stack entries. -/
theorem exec_withStack (hret : i ≠ .ret) (hcall : ∀ nnn, i ≠ .call nnn) (s : State) (k : Vector Word 16) :
    exec i { s with stack := k } = mapNext (fun t => { t with stack := k }) (exec i s) :=
  exec_apply { stack := fun _ => k } s (avoids_of_ne_ret_call hret hcall _ _)

/-- A fault of an instruction does not depend on the stack entries. -/
theorem exec_fault_withStack (h : exec i s = .fault f) : exec i { s with stack := k } = .fault f := by
  by_cases hret : i = .ret
  · subst hret
    exact execRet_eq_fault.2 ((execRet_eq_fault (s := s)).1 h)
  by_cases hcall : ∃ nnn, i = .call nnn
  · obtain ⟨nnn, rfl⟩ := hcall
    exact execCall_eq_fault.2 ((execCall_eq_fault (s := s)).1 h)
  · rw [exec_withStack hret (not_exists.1 hcall), h]
    rfl

/-- A next state does not depend on the stack entries at SP or above, and its stack agrees below its own SP. -/
theorem exec_next_withStack (hk : AgreeBelow s.sp.toNat k s.stack) (h : exec i s = .next t) :
    ∃ m, exec i { s with stack := k } = .next { t with stack := m } ∧ AgreeBelow t.sp.toNat m t.stack := by
  by_cases hret : i = .ret
  · subst hret
    obtain ⟨h0, hsp, rfl⟩ := execRet_eq_next.1 h
    obtain ⟨hpos, hsub⟩ := toNat_sp_sub_one h0
    have htop : k[(s.sp - 1).toNat] = s.stack[(s.sp - 1).toNat] := hk.getElem_eq (by omega) hsp
    refine ⟨k, execRet_eq_next.2 ⟨h0, hsp, ?_⟩, hk.mono (by rw [State.pop_sp, hsub]; exact Nat.sub_le _ _)⟩
    simp only [State.pop, htop]
  by_cases hcall : ∃ nnn, i = .call nnn
  · obtain ⟨nnn, rfl⟩ := hcall
    obtain ⟨hsp, rfl⟩ := execCall_eq_next.1 h
    have hadd : (s.sp + 1).toNat = s.sp.toNat + 1 := by bv_omega
    refine ⟨k.set s.sp.toNat s.pc, execCall_eq_next.2 ⟨hsp, rfl⟩, ?_⟩
    rw [State.setPc_sp, State.push_sp, hadd]
    exact hk.set hsp s.pc
  · obtain ⟨hkeepsp, hkeep⟩ := exec_keeps_sp_stack hret (not_exists.1 hcall) h
    refine ⟨k, ?_, by rwa [hkeepsp, hkeep]⟩
    rw [exec_withStack hret (not_exists.1 hcall), h]
    rfl

/-- Two states that differ only in stack entries at SP or above step alike, and still agree below the new SP (R26). -/
theorem step_withStack (hk : AgreeBelow s.sp.toNat k s.stack) (h : step s = .next t) :
    ∃ m, step { s with stack := k } = .next { t with stack := m } ∧ AgreeBelow t.sp.toNat m t.stack := by
  obtain ⟨hf, rfl⟩ | ⟨hf, hpc, rfl⟩ | ⟨op, hf, hop, hend⟩ := step_cases h
  · exact ⟨k, step_faulted hf, hk⟩
  · exact ⟨k, step_fetchOob hf hpc, hk⟩
  · have hstep : step { s with stack := k } =
        endCycle { s with stack := k } op (exec (decode s.config op) { preIncrement s with stack := k }) :=
      step_fetched hf hop
    obtain ⟨u, hu, rfl⟩ | ⟨f, hu, rfl⟩ := hend
    · obtain ⟨m, hm, hagree⟩ := exec_next_withStack (s := preIncrement s) hk hu
      exact ⟨m, by rw [hstep, hm]; rfl, hagree⟩
    · exact ⟨k, by rw [hstep, exec_fault_withStack hu]; rfl, hk⟩

/-- The host's Load commutes with a change of the pieces that few instructions touch: it writes memory only (R60). -/
theorem loadRom_apply (c : Change) (rom : List Byte) (s : State) :
    loadRom rom (c.apply s) = (loadRom rom s).map c.apply := by
  by_cases h : 3584 < rom.length
  · rw [loadRom_of_gt h, loadRom_of_gt h]
    rfl
  · rw [loadRom_of_le (Nat.not_lt.1 h), loadRom_of_le (Nat.not_lt.1 h), c.pokeAll_apply]
    rfl

end

/-- Settles O10: every instruction but CALL and RET, the load and the keypad update commute with a change of the stack
entries; CALL and RET are their next states; and a step keeps the agreement of two stacks below SP. -/
theorem stackTouchedOnlyByCallAndRet : Obligations.StackTouchedOnlyByCallAndRet := by
  refine ⟨fun i s k hret hcall => exec_withStack hret hcall s k, fun nnn s t h => ?_, fun s t h => ?_,
    fun rom s k => loadRom_apply { stack := fun _ => k } rom s, fun keys s k => rfl,
    fun s t k hk h => step_withStack hk h⟩
  · obtain ⟨_, rfl⟩ := execCall_eq_next.1 h
    simp [Vector.toList_set]
  · obtain ⟨h0, hsp, rfl⟩ := execRet_eq_next.1 h
    obtain ⟨hpos, hsub⟩ := toNat_sp_sub_one h0
    exact ⟨rfl, by simp [← hsub], hpos⟩

/-! ### Reset -/

section
variable (c : Config)

/-- Memory after reset holds its reset contents: no cell is listed (R36). -/
theorem peek_resetWith (a : Nat) : (State.resetWith c).peek a = resetByte c a := rfl

/-- The reset contents from P_FONT_BASE upward are the font (R31). -/
theorem resetByte_font (k : Nat) (h : k < 80) : resetByte c (c.fontBase.toNat + k) = c.fontData[k] := by
  simp [resetByte, h]

/-- The reset contents outside the font are 0 (R36). -/
theorem resetByte_outside_font (a : Nat) (h : a < c.fontBase.toNat ∨ c.fontBase.toNat + 80 ≤ a) :
    resetByte c a = 0 := by
  unfold resetByte
  split
  · have hlen : c.fontData.toList.length ≤ a - c.fontBase.toNat := by rw [Vector.length_toList]; omega
    rw [List.getD_eq_default _ _ hlen]
  · rfl

/-- Every register is 0 after reset (R36). -/
theorem reg_resetWith (x : Reg) : (State.resetWith c).reg x = 0 := by
  simp [State.reg_eq, State.resetWith]

end

/-- Settles O1: the fields are the reset state's own, and its memory holds the font and 0 elsewhere. -/
theorem resetLeavesTheStatedValues : Obligations.ResetLeavesTheStatedValues := by
  intro c
  refine ⟨reg_resetWith c, rfl, rfl, rfl, rfl, rfl, fun p _ => pixelOn_clear p, fun k _ => ?_, fun k h => ?_,
    fun a _ h => ?_, rfl⟩
  · simp [State.key, State.resetWith]
  · exact (peek_resetWith c _).trans (resetByte_font c k h)
  · exact (peek_resetWith c a).trans (resetByte_outside_font c a h)

end Sys2Proof.Machine
end

section
/-! SUPPORT. A byte written is what is read and fetched, a Load stores its bytes or is rejected, and a run goes on
after the rejection (20_memory.md R50 to R61, 60_exceptions.md R257). -/

namespace Sys2Proof.Machine

/-! ### One byte and one word -/

/-- A read after a `poke` of an existing address: the byte poked there, and every other address as before. -/
theorem memRead_poke {a : Nat} (ha : a ≤ 0xFFF) (s : State) (v : Byte) (b : Nat) :
    (s.poke a v).memRead b = if b = a then .ok v else s.memRead b := by
  by_cases hb : b = a
  · subst hb
    simp [State.memRead, State.peek_poke, ha]
  · simp [State.memRead, State.peek_poke, hb, Ne.symm hb]

/-- The big-endian word as a number (R52). -/
theorem toNat_composeWord (hi lo : Byte) : (composeWord hi lo).toNat = hi.toNat * 256 + lo.toNat := by
  rw [composeWord, BitVec.toNat_append, ← Nat.shiftLeft_add_eq_or_of_lt lo.isLt, Nat.shiftLeft_eq]

/-- Settles O14: a write that happens is a `poke` of an existing address. -/
theorem readAfterWrite : Obligations.ReadAfterWrite := by
  intro s t a v h b
  obtain ⟨ha, rfl⟩ := memWrite_eq_ok.1 h
  exact memRead_poke ha s v b

/-- Settles O17: the word fetched is composed of the two bytes at PC. -/
theorem fetchIsBigEndian : Obligations.FetchIsBigEndian := by
  intro s hpc
  exact ⟨_, fetchWord_eq_ok.2 ⟨hpc, rfl⟩, toNat_composeWord _ _⟩

/-! ### Several bytes -/

theorem mem_addrsFrom {a count k : Nat} : k ∈ addrsFrom a count ↔ a ≤ k ∧ k < a + count := by
  simp only [addrsFrom, List.mem_map, List.mem_range]
  constructor
  · rintro ⟨j, hj, rfl⟩
    omega
  · intro h
    exact ⟨k - a, by omega, by omega⟩

/-- A byte stored at an existing address is at its place. -/
theorem peek_pokeAll_add {bs : List Byte} {a k : Nat} (hk : k < bs.length) (hak : a + k ≤ 0xFFF) (s : State) :
    (pokeAll a bs s).peek (a + k) = bs[k] := by
  rw [peek_pokeAll, dif_pos (by omega)]
  simp

/-- Storing bytes from `a` upward changes nothing but their addresses. -/
theorem pokeAll_sameExcept (bs : List Byte) (a : Nat) (s : State) :
    SameExcept { bytes := addrsFrom a bs.length } s (pokeAll a bs s) := by
  constructor
  case bytes =>
    intro k hk
    have hout : ¬ (a ≤ k ∧ k < a + bs.length) := fun h => hk (mem_addrsFrom.2 h)
    rw [peek_pokeAll, dif_neg (by omega)]
  all_goals simp

/-! ### Load and the run after it -/

/-- Settles O4: a Load of at most 3584 bytes ends at or below 0xFFF, so every byte is stored in its place. -/
theorem loadCopiesOrRejects : Obligations.LoadCopiesOrRejects := by
  refine ⟨fun keys s a => peek_setKeys s keys a, fun bytes s => ⟨loadRom_of_gt, fun hle => ?_⟩⟩
  exact ⟨_, loadRom_of_le hle, fun k hk => peek_pokeAll_add hk (by omega) s, pokeAll_sameExcept bytes 0x200 s⟩

/-- Settles O59: boot after a rejected Load gives the reset state, as boot without a Load does. -/
theorem rejectedLoadGoesOnFromTheResetState : Obligations.RejectedLoadGoesOnFromTheResetState := by
  intro c rom hrom
  refine ⟨loadRom_of_gt hrom, boot_some_of_gt hrom, fun as t => ?_⟩
  rw [FinalState, FinalState, boot_some_of_gt hrom, boot_none]

end Sys2Proof.Machine
end

section
/-! SUPPORT. The decoder family by family and key by key, and its statements of 30_encoding.md: it undoes the encoder,
every word has a well-formed instruction, and the opcode table read first-match agrees with it. -/

namespace Sys2Proof

variable {c : Config} {op w : Word}

/-! ### The fields and keys of a word as numbers (R81, R82, R84) -/

theorem toNat_familyOf (op : Word) : (familyOf op).toNat = op.toNat / 4096 := by
  have := op.isLt
  rw [familyOf, BitVec.extractLsb'_toNat, Nat.shiftRight_eq_div_pow]
  omega

theorem toNat_nOf (op : Word) : (nOf op).toNat = op.toNat % 16 := BitVec.extractLsb'_toNat _ _ _

theorem toNat_kkOf (op : Word) : (kkOf op).toNat = op.toNat % 256 := BitVec.extractLsb'_toNat _ _ _

theorem toNat_nnnOf (op : Word) : (nnnOf op).toNat = op.toNat % 4096 := BitVec.extractLsb'_toNat _ _ _

/-- A key of 4 bits is the low nibble, and one of 8 bits the low byte (R84 c, d). -/
theorem keyIs_iff {w : KeyWidth} {key : Byte} :
    keyIs w op key = true ↔
      (w = .four → op.toNat % 16 = key.toNat % 16) ∧ (w = .eight → op.toNat % 256 = key.toNat) := by
  cases w with
  | four => simp [keyIs, ← BitVec.toNat_inj, toNat_nOf]
  | eight => simp [keyIs, ← BitVec.toNat_inj, toNat_kkOf]

/-- The keys that select a routine in family 0 are those of CLS and RET (R85, R130). -/
theorem mappedInFamily0_nnnOf (w : KeyWidth) (op : Word) :
    mappedInFamily0 w (nnnOf op) = (keyIs w op 0xE0 || keyIs w op 0xEE) := by
  have h16 : op.toNat % 4096 % 16 = op.toNat % 16 := by omega
  have h256 : op.toNat % 4096 % 256 = op.toNat % 256 := by omega
  rw [Bool.eq_iff_iff, Bool.or_eq_true, keyIs_iff, keyIs_iff]
  cases w <;> simp [mappedInFamily0, toNat_nnnOf, h16, h256]

/-! ### The families with a sub-opcode (R84, R85) -/

theorem decode_of_family0 (h : familyOf op = 0x0) : decode c op = decodeFamily0 c op := by simp [decode, h]

theorem decode_of_family8 (h : familyOf op = 0x8) : decode c op = decodeFamily8 op := by simp [decode, h]

theorem decode_of_familyE (h : familyOf op = 0xE) : decode c op = decodeFamilyE c op := by simp [decode, h]

theorem decode_of_familyF (h : familyOf op = 0xF) : decode c op = decodeFamilyF op := by simp [decode, h]

/-- A word of family 0 whose key is not mapped is SYS (R130). -/
theorem decodeFamily0_of_not_mapped (h : mappedInFamily0 c.subkey0 (nnnOf op) = false) :
    decodeFamily0 c op = .sys (nnnOf op) := by
  rw [mappedInFamily0_nnnOf, Bool.or_eq_false_iff] at h
  obtain ⟨hcls, hret⟩ := h
  rw [decodeFamily0, hcls, hret]
  rfl

/-- A word of family 0 is CLS or RET when its key is mapped, and otherwise a well-formed SYS. -/
theorem decodeFamily0_wellFormed (c : Config) (op : Word) : (decodeFamily0 c op).wellFormed c = true := by
  cases h : mappedInFamily0 c.subkey0 (nnnOf op) with
  | false => simp [decodeFamily0_of_not_mapped h, Instr.wellFormed, h]
  | true =>
    rw [mappedInFamily0_nnnOf, Bool.or_eq_true] at h
    unfold decodeFamily0
    split
    · rfl
    · next hcls =>
      rw [if_pos (h.resolve_left hcls)]
      rfl

/-! ### Decoding what the encoder writes -/

/-- Decoding the canonical word of a well-formed instruction gives it back. The cases are those of the word's format
(R81): its fields are read off, and the sub-opcode, if the family has one, selects the row. -/
theorem decode_encode (i : Instr) (h : i.wellFormed c = true) : decode c (encode i) = i := by
  cases i with
  | jp | call | ldI | jpV0 => simp [encode, decode, familyOf_wordNnn, nnnOf_wordNnn]
  | seImm | sneImm | ldImm | addImm | rnd => simp [encode, decode, familyOf_wordXkk, xOf_wordXkk, kkOf_wordXkk]
  | seReg | sneReg | drw => simp [encode, decode, familyOf_wordXyn, xOf_wordXyn, yOf_wordXyn, nOf_wordXyn]
  | cls | ret =>
    rw [encode, decode_of_family0 rfl]
    cases hw : c.subkey0 <;> simp [decodeFamily0, keyIs, nOf, kkOf, hw]
  | sys nnn =>
    rw [encode, decode_of_family0 (familyOf_wordNnn _ _), decodeFamily0_of_not_mapped, nnnOf_wordNnn]
    simpa [Instr.wellFormed, nnnOf_wordNnn] using h
  | ldReg | orReg | andReg | xorReg | addReg | subReg | shr | subn | shl =>
    rw [encode, decode_of_family8 (familyOf_wordXyn _ _ _ _)]
    simp [decodeFamily8, xOf_wordXyn, yOf_wordXyn, nOf_wordXyn]
  | skp | sknp =>
    rw [encode, decode_of_familyE (familyOf_wordXkk _ _ _)]
    cases hw : c.subkeyE <;> simp [decodeFamilyE, keyIs, nOf_wordXkk, kkOf_wordXkk, xOf_wordXkk, hw]
  | ldVxDt | ldVxK | ldDtVx | ldStVx | addI | ldF | ldB | ldMemVx | ldVxMem =>
    rw [encode, decode_of_familyF (familyOf_wordXkk _ _ _)]
    simp [decodeFamilyF, xOf_wordXkk, kkOf_wordXkk]
  | nop8 | nopF => rfl
  | nopE =>
    rw [encode, decode_of_familyE rfl]
    cases hw : c.subkeyE <;> simp [decodeFamilyE, keyIs, nOf, kkOf, hw]

/-- The bytes of an instruction are decoded as its word, and the bytes after them are left (R80). -/
theorem decodeBytes_encodeBytes_append (c : Config) (i : Instr) (rest : List Byte) :
    decodeBytes c (encodeBytes i ++ rest) = .ok (decode c (encode i), rest) := by
  simp only [encodeBytes, wordBytes, List.cons_append, List.nil_append, decodeBytes, Machine.composeWord_bytes]

/-- Settles O18: the two bytes compose to the encoded word again (R52), which `decode_encode` decodes. -/
theorem decodeOfEncode : Obligations.DecodeOfEncode := by
  intro c i rest h
  rw [decodeBytes_encodeBytes_append, decode_encode i h]

/-- Settles O22: ten of the words are canonical; the two that ignore N are decoded from their fields (R87). -/
theorem twelveFamiliesMapOneToOne : Obligations.TwelveFamiliesMapOneToOne := by
  intro c x y n kk nnn
  have hse : decode c (wordXyn 0x5 x y n) = .seReg x y := by
    simp [decode, familyOf_wordXyn, xOf_wordXyn, yOf_wordXyn]
  have hsne : decode c (wordXyn 0x9 x y n) = .sneReg x y := by
    simp [decode, familyOf_wordXyn, xOf_wordXyn, yOf_wordXyn]
  exact ⟨decode_encode (.jp nnn) rfl, decode_encode (.call nnn) rfl, decode_encode (.seImm x kk) rfl,
    decode_encode (.sneImm x kk) rfl, hse, decode_encode (.ldImm x kk) rfl, decode_encode (.addImm x kk) rfl, hsne,
    decode_encode (.ldI nnn) rfl, decode_encode (.jpV0 nnn) rfl, decode_encode (.rnd x kk) rfl,
    decode_encode (.drw x y n) rfl⟩

/-- Settles O23: each word is the canonical word of its instruction. -/
theorem exampleWordsDecode : Obligations.ExampleWordsDecode := by
  intro c
  exact ⟨decode_encode (.ldImm 0 0x0A) rfl, decode_encode (.addReg 0 1) rfl, decode_encode (.jp 0x234) rfl,
    decode_encode (.call 0x208) rfl, decode_encode (.drw 0 0 5) rfl, decode_encode (.ldVxMem 2) rfl,
    decode_encode (.skp 1) rfl, decode_encode .ret rfl, decode_encode (.ldI 0x2F0) rfl⟩

/-! ### Every word is a well-formed instruction (R85, R88) -/

theorem decodeFamily8_wellFormed (c : Config) (op : Word) : (decodeFamily8 op).wellFormed c = true := by
  unfold decodeFamily8
  split <;> rfl

theorem decodeFamilyE_wellFormed (c : Config) (op : Word) : (decodeFamilyE c op).wellFormed c = true := by
  unfold decodeFamilyE
  split
  · rfl
  · split <;> rfl

theorem decodeFamilyF_wellFormed (c : Config) (op : Word) : (decodeFamilyF op).wellFormed c = true := by
  unfold decodeFamilyF
  split <;> rfl

/-- Settles O19: only SYS carries a check, and family 0 gives it to words whose key is not mapped. -/
theorem everyWordDecodesWellFormed : Obligations.EveryWordDecodesWellFormed := by
  intro c op
  unfold decode
  split
  case h_1 => exact decodeFamily0_wellFormed c op
  case h_9 => exact decodeFamily8_wellFormed c op
  case h_15 => exact decodeFamilyE_wellFormed c op
  case h_16 => exact decodeFamilyF_wellFormed c op
  all_goals rfl

/-! ### The masks of the opcode table (R90) -/

/-- The mask of a family keeps `op[15:12]`. -/
theorem and_familyMask (op : Word) : op &&& 0xF000#16 = wordNnn (familyOf op) 0 := by
  apply BitVec.eq_of_getLsbD_eq
  intro k hk
  rw [BitVec.getLsbD_and, getLsbD_wordNnn, familyOf, BitVec.getLsbD_extractLsb']
  interval_cases k <;> simp

/-- The mask of a family with a 4-bit key keeps `op[15:12]` and `op[3:0]`. -/
theorem and_key4Mask (op : Word) : op &&& 0xF00F#16 = wordXyn (familyOf op) 0 0 (nOf op) := by
  apply BitVec.eq_of_getLsbD_eq
  intro k hk
  rw [BitVec.getLsbD_and, getLsbD_wordXyn, familyOf, nOf, BitVec.getLsbD_extractLsb', BitVec.getLsbD_extractLsb']
  interval_cases k <;> simp

/-- The mask of a family with an 8-bit key keeps `op[15:12]` and `op[7:0]`. -/
theorem and_key8Mask (op : Word) : op &&& 0xF0FF#16 = wordXkk (familyOf op) 0 (kkOf op) := by
  apply BitVec.eq_of_getLsbD_eq
  intro k hk
  rw [BitVec.getLsbD_and, getLsbD_wordXkk, familyOf, kkOf, BitVec.getLsbD_extractLsb', BitVec.getLsbD_extractLsb']
  interval_cases k <;> simp

/-! The `match` word `w` is a literal of the table, so the fields of `w` are written for `simp` to compute. -/

@[simp] theorem and_familyMask_eq_iff (hw : w &&& 0xF000#16 = w) :
    op &&& 0xF000#16 = w ↔ familyOf op = w.extractLsb' 12 4 := by
  constructor
  · rintro rfl
    exact (and_familyMask op ▸ familyOf_wordNnn _ _).symm
  · intro hf
    rw [← hw, and_familyMask, and_familyMask, hf]
    rfl

@[simp] theorem and_key4Mask_eq_iff (hw : w &&& 0xF00F#16 = w) :
    op &&& 0xF00F#16 = w ↔ familyOf op = w.extractLsb' 12 4 ∧ nOf op = w.extractLsb' 0 4 := by
  constructor
  · rintro rfl
    exact ⟨(and_key4Mask op ▸ familyOf_wordXyn _ _ _ _).symm, (and_key4Mask op ▸ nOf_wordXyn _ _ _ _).symm⟩
  · rintro ⟨hf, hn⟩
    rw [← hw, and_key4Mask, and_key4Mask, hf, hn]
    rfl

@[simp] theorem and_key8Mask_eq_iff (hw : w &&& 0xF0FF#16 = w) :
    op &&& 0xF0FF#16 = w ↔ familyOf op = w.extractLsb' 12 4 ∧ kkOf op = w.extractLsb' 0 8 := by
  constructor
  · rintro rfl
    exact ⟨(and_key8Mask op ▸ familyOf_wordXkk _ _ _).symm, (and_key8Mask op ▸ kkOf_wordXkk _ _ _).symm⟩
  · rintro ⟨hf, hkk⟩
    rw [← hw, and_key8Mask, and_key8Mask, hf, hkk]
    rfl

/-- A row that depends on a key width matches the words of its family whose key is the row's (D2). -/
@[simp] theorem and_keyMask_eq_iff (k : KeyWidth) :
    op &&& keyMask k = keyMatch k w ↔
      familyOf op = w.extractLsb' 12 4 ∧ keyIs k op (w.extractLsb' 0 8) = true := by
  have hidem (m : Word) : w &&& m &&& m = w &&& m := by rw [BitVec.and_assoc, BitVec.and_self]
  cases k with
  | four =>
    refine (and_key4Mask_eq_iff (hidem _)).trans ?_
    rw [and_key4Mask]
    exact and_congr (by rw [← familyOf, familyOf_wordXyn]; rfl) (by rw [← nOf, nOf_wordXyn]; simp [keyIs, nOf])
  | eight =>
    refine (and_key8Mask_eq_iff (hidem _)).trans ?_
    rw [and_key8Mask]
    exact and_congr (by rw [← familyOf, familyOf_wordXkk]; rfl) (by rw [← kkOf, kkOf_wordXkk]; simp [keyIs, kkOf])

/-! ### The parts of the opcode table, each for its families (R90)

In a part with several families, each family leaves the questions about the key that the decoder asks; in one with a
single family, each key the decoder knows leaves its row. -/

/-- A table in two parts: the second is asked when nothing in the first matches. -/
theorem firstMatch_append (rs qs : List TableRow) (op : Word) :
    firstMatch (rs ++ qs) op = (firstMatch rs op).or (firstMatch qs op) := by
  induction rs with
  | nil => rfl
  | cons r rs ih =>
    simp only [List.cons_append, firstMatch, ih]
    split <;> rfl

/-- A word is of one of the sixteen families. -/
theorem exists_familyOf_eq (op : Word) : ∃ k < 16, familyOf op = BitVec.ofNat 4 k :=
  ⟨(familyOf op).toNat, (familyOf op).isLt, by simp⟩

theorem firstMatch_tableRows0to7 (c : Config) (op : Word) :
    firstMatch (tableRows0to7 c) op = if familyOf op ≤ 7 then some (decode c op) else none := by
  obtain ⟨k, hk, hf⟩ := exists_familyOf_eq op
  interval_cases k <;> simp [tableRows0to7, firstMatch, decode, decodeFamily0, apply_ite some, hf]

theorem firstMatch_tableRows9toE (c : Config) (op : Word) :
    firstMatch (tableRows9toE c) op =
      if 9 ≤ familyOf op ∧ familyOf op ≤ 14 then some (decode c op) else none := by
  obtain ⟨k, hk, hf⟩ := exists_familyOf_eq op
  interval_cases k <;> simp [tableRows9toE, firstMatch, decode, decodeFamilyE, apply_ite some, hf]

theorem firstMatch_tableRows8 (c : Config) (op : Word) :
    firstMatch tableRows8 op = if familyOf op = 8 then some (decode c op) else none := by
  by_cases hf : familyOf op = 8
  · rw [if_pos hf, decode_of_family8 hf]
    unfold decodeFamily8
    split <;> simp_all [tableRows8, firstMatch]
  · simp_all [tableRows8, firstMatch]

theorem firstMatch_tableRowsF (c : Config) (op : Word) :
    firstMatch tableRowsF op = if familyOf op = 15 then some (decode c op) else none := by
  by_cases hf : familyOf op = 15
  · rw [if_pos hf, decode_of_familyF hf]
    unfold decodeFamilyF
    split <;> simp_all [tableRowsF, firstMatch]
  · simp_all [tableRowsF, firstMatch]

/-- Settles O20: each part of the table matches the words of its families and no others, and every family has its
part. -/
theorem decodeAgreesWithOpcodeTable : Obligations.DecodeAgreesWithOpcodeTable := by
  intro c op
  rw [decodeByTable, tableRows, firstMatch_append, firstMatch_append, firstMatch_append, firstMatch_tableRows0to7 c,
    firstMatch_tableRows8 c, firstMatch_tableRows9toE c, firstMatch_tableRowsF c]
  obtain ⟨k, hk, hf⟩ := exists_familyOf_eq op
  interval_cases k <;> simp [hf]

/-! ### Words whose key is not mapped (R84, R86) -/

/-- A key in the lists of the mapped ones is not the key of a word whose own key is outside them. -/
theorem not_keyIs_of_not_mem {w : KeyWidth} {key : Byte} {keys4 keys8 : List Nat}
    (h4 : w = .four → op.toNat % 16 ∉ keys4) (h8 : w = .eight → op.toNat % 256 ∉ keys8)
    (hkey4 : key.toNat % 16 ∈ keys4) (hkey8 : key.toNat ∈ keys8) : ¬ keyIs w op key = true := by
  rw [keyIs_iff]
  rintro ⟨e4, e8⟩
  cases w with
  | four => exact h4 rfl (e4 rfl ▸ hkey4)
  | eight => exact h8 rfl (e8 rfl ▸ hkey8)

theorem decodeFamily8_of_not_mem (h : op.toNat % 16 ∉ [0x0, 0x1, 0x2, 0x3, 0x4, 0x5, 0x6, 0x7, 0xE]) :
    decodeFamily8 op = .nop8 := by
  rw [← toNat_nOf] at h
  unfold decodeFamily8
  split <;> simp_all

theorem decodeFamilyF_of_not_mem (h : op.toNat % 256 ∉ [0x07, 0x0A, 0x15, 0x18, 0x1E, 0x29, 0x33, 0x55, 0x65]) :
    decodeFamilyF op = .nopF := by
  rw [← toNat_kkOf] at h
  unfold decodeFamilyF
  split <;> simp_all

theorem familyOf_eq_of_div {f : BitVec 4} (h : op.toNat / 4096 = f.toNat) : familyOf op = f :=
  BitVec.eq_of_toNat_eq ((toNat_familyOf op).trans h)

end Sys2Proof
end

section
/-! SUPPORT. What the execute step and the Cycle do with the decoded instruction: the no-ops change nothing, and in a
legal state no word is refused (30_encoding.md R86, R88). -/

namespace Sys2Proof.Machine

variable {c : Config} {op : Word} {s : State}

/-! ### The no-ops (R86, R130) -/

/-- Settles O32: the meaning of each of the four is `noEffect`. -/
theorem noOpsChangeNothing : Obligations.NoOpsChangeNothing := fun _ _ => ⟨rfl, rfl, rfl, rfl⟩

/-- A word with an unmapped key decodes to the residual row of its family (R86). -/
theorem decode_of_unmappedKey (h : UnmappedKey c op) :
    decode c op = .sys (nnnOf op) ∨ decode c op = .nop8 ∨ decode c op = .nopE ∨ decode c op = .nopF := by
  obtain ⟨hf, h4, h8⟩ | ⟨hf, hkey⟩ | ⟨hf, h4, h8⟩ | ⟨hf, hkey⟩ := h
  · refine .inl ?_
    rw [decode_of_family0 (familyOf_eq_of_div hf), decodeFamily0,
      if_neg (not_keyIs_of_not_mem h4 h8 (by decide) (by decide)),
      if_neg (not_keyIs_of_not_mem h4 h8 (by decide) (by decide))]
  · refine .inr (.inl ?_)
    rw [decode_of_family8 (familyOf_eq_of_div hf), decodeFamily8_of_not_mem hkey]
  · refine .inr (.inr (.inl ?_))
    rw [decode_of_familyE (familyOf_eq_of_div hf), decodeFamilyE,
      if_neg (not_keyIs_of_not_mem h4 h8 (by decide) (by decide)),
      if_neg (not_keyIs_of_not_mem h4 h8 (by decide) (by decide))]
  · refine .inr (.inr (.inr ?_))
    rw [decode_of_familyF (familyOf_eq_of_div hf), decodeFamilyF_of_not_mem hkey]

theorem exec_of_unmappedKey (h : UnmappedKey c op) (u : State) : exec (decode c op) u = .next u := by
  obtain ⟨hsys, hnop8, hnopE, hnopF⟩ := noOpsChangeNothing u (nnnOf op)
  obtain e | e | e | e := decode_of_unmappedKey h <;> rw [e] <;> assumption

/-- A Cycle whose execute step changes nothing advances PC and counts the timers down, and no more (R112, R116). -/
theorem timerPostStep_preIncrement_sameExcept (s : State) :
    SameExcept { pc := true, dt := true, st := true } s (timerPostStep (preIncrement s)) := by
  constructor <;> simp

/-- Settles O21: the decoded instruction is one of the four no-ops, so its Cycle is the pre-increment and the timer
post-step. -/
theorem unmappedKeysAreNoOps : Obligations.UnmappedKeysAreNoOps := by
  intro op s h
  refine ⟨exec_of_unmappedKey h, fun hfault hop => ⟨timerPostStep (preIncrement s), ?_, rfl, toNat_countDown s.dt,
    toNat_countDown s.st, timerPostStep_preIncrement_sameExcept s⟩⟩
  rw [step_fetched hfault hop, exec_of_unmappedKey h]
  rfl

/-! ### Every Cycle answers a next state (R86, R88, R242) -/

/-- RET is refused exactly with SP above 16 (log entry 4). -/
theorem execRet_eq_refused {r : Refusal} :
    execRet s = .refused r ↔ 16 < s.sp.toNat ∧ r = .stackPointerIllegal s.sp := by
  unfold execRet
  split
  · next h => simp [h, raiseFault]
  · next h =>
    obtain ⟨hpos, hsub⟩ := toNat_sp_sub_one h
    split
    · next hlt => exact ⟨nofun, fun e => by omega⟩
    · next hge =>
      simp only [Host.Outcome.refused.injEq, eq_comm (a := r)]
      exact ⟨fun e => ⟨by omega, e⟩, fun e => e.2⟩

/-- CALL is refused exactly with SP above 16 (log entry 4). -/
theorem execCall_eq_refused {nnn : BitVec 12} {r : Refusal} :
    execCall nnn s = .refused r ↔ 16 < s.sp.toNat ∧ r = .stackPointerIllegal s.sp := by
  unfold execCall
  split
  · next h => simp [h, raiseFault]
  · next h =>
    have hne : s.sp.toNat ≠ 16 := fun e => h (BitVec.eq_of_toNat_eq e)
    split
    · next hlt => exact ⟨nofun, fun e => by omega⟩
    · next hge =>
      simp only [Host.Outcome.refused.injEq, eq_comm (a := r)]
      exact ⟨fun e => ⟨by omega, e⟩, fun e => e.2⟩

/-- Only CALL and RET are refused, and only with SP above 16 (log entry 4). -/
theorem exec_eq_refused {i : Instr} {r : Refusal} (h : exec i s = .refused r) :
    16 < s.sp.toNat ∧ (i = .ret ∨ ∃ nnn, i = .call nnn) := by
  cases i with
  | ret => exact ⟨(execRet_eq_refused.1 h).1, .inl rfl⟩
  | call nnn => exact ⟨(execCall_eq_refused.1 h).1, .inr ⟨nnn, rfl⟩⟩
  | ldB x | ldMemVx x => exact absurd h conclude_ne_refused
  | skp | sknp | ldVxK | drw | ldVxMem =>
    -- a key, a pixel or a byte of memory decides between a next state and a fault
    simp only [exec, execSkp, execSknp, skipOnKey, execLdVxK, execDrw, execLdVxMem, raiseFault] at h
    split at h <;> cases h
  | _ => cases h

/-- Settles O6: a fault of the fetch or of the execute step is recorded, and with SP at most 16 none is refused. -/
theorem everyCycleAnswersANextState : Obligations.EveryCycleAnswersANextState := by
  intro s hinv
  by_cases hfault : s.fault = none
  · cases hop : fetchWord s with
    | error f => exact ⟨_, step_fetchOob hfault (fetchWord_eq_error.1 hop).1⟩
    | ok op =>
      rw [step_fetched hfault hop]
      cases he : exec (decode s.config op) (preIncrement s) with
      | next u => exact ⟨_, rfl⟩
      | fault f => exact ⟨_, rfl⟩
      | refused r => exact absurd (exec_eq_refused he).1 (Nat.not_lt.2 hinv.sp)
  · exact ⟨s, step_faulted hfault⟩

end Sys2Proof.Machine
end

section
/-! SUPPORT. The Cycle around the execute step: what a step makes of the execute step's outcome, the timers' countdown,
and PC after every instruction (40_cycle.md R111 to R120). -/

namespace Sys2Proof.Machine

variable {i : Instr} {s t u : State}

/-! ### The step and the decoded instruction (R111) -/

/-- Settles O24: the bytes at PC are the word the Cycle fetches, and each outcome of the execute step ends the Cycle in
its own way. -/
theorem stepRunsTheDecodedInstruction : Obligations.StepRunsTheDecodedInstruction := by
  intro s i hnone hpc hdecode _
  obtain ⟨rfl, _⟩ := Prod.mk.inj (Except.ok.inj hdecode)
  have hstep := step_fetched hnone (fetchWord_eq_ok.2 ⟨hpc, rfl⟩)
  refine ⟨fun t h => ?_, fun f h => ?_, fun r h => ?_⟩ <;>
  · rw [hstep, show preIncrement s = { s with pc := s.pc + 2 } from rfl, h]
    rfl

/-! ### What an execute step leaves of PC and DT -/

/-- An execute step keeps PC, and it keeps DT, unless its instruction's footprint names it (R24, R27). -/
theorem exec_keeps_pc_dt (h : exec i s = .next t) :
    ((footprint i s).pc = false → t.pc = s.pc) ∧ ((footprint i s).dt = false → t.dt = s.dt) := by
  cases i with
  | ret => obtain ⟨_, _, rfl⟩ := execRet_eq_next.1 h; simp [footprint]
  | call nnn => obtain ⟨_, rfl⟩ := execCall_eq_next.1 h; simp [footprint]
  | skp x | sknp x => obtain ⟨_, rfl⟩ := skipOnKey_eq_next.1 h; simp [footprint]
  | ldVxK x => obtain ⟨_, _, rfl⟩ | ⟨_, rfl⟩ := execLdVxK_eq_next.1 h <;> simp [footprint]
  | drw x y n => obtain ⟨_, _, rfl⟩ := execDrw_eq_next.1 h; simp
  | ldB x => obtain ⟨_, rfl⟩ := execLdB_eq_next.1 h; simp
  | ldMemVx x => obtain ⟨_, rfl⟩ := execLdMemVx_eq_next.1 h; simp
  | ldVxMem x => obtain ⟨_, rfl⟩ := execLdVxMem_eq_next.1 h; simp
  | _ =>
    -- every other meaning answers one next state, made of the operations of Laws/State and Laws/Flags
    obtain rfl := Host.Outcome.next.inj h
    simp [footprint]

/-- DT keeps its value under every instruction but LD DT,Vx. -/
theorem exec_keeps_dt (hi : ∀ x, i ≠ .ldDtVx x) (h : exec i s = .next t) : t.dt = s.dt := by
  refine (exec_keeps_pc_dt h).2 ?_
  cases i with
  | ldDtVx x => exact absurd rfl (hi x)
  | _ => rfl

/-! ### The timers (R116, R118) -/

/-- The timer post-step changes nothing but the timers. -/
theorem timerPostStep_sameExcept (s : State) : SameExcept { dt := true, st := true } s (timerPostStep s) := by
  constructor <;> simp

/-- A Cycle that does not write DT leaves it one lower, or at 0. -/
theorem CycleOf.toNat_dt (h : CycleOf i s t) (hi : ∀ x, i ≠ .ldDtVx x) : t.dt.toNat = s.dt.toNat - 1 := by
  obtain ⟨u, hu, rfl⟩ := h.exec_eq_next
  rw [timerPostStep_dt, toNat_countDown, exec_keeps_dt hi hu, preIncrement_dt]

/-- Settles O27: the Cycle is the execute step and the timer post-step, and only LD DT,Vx and LD ST,Vx write a timer in
the execute step. -/
theorem timersCountDownOncePerCycle : Obligations.TimersCountDownOncePerCycle := by
  intro i s t h
  obtain ⟨_, _, _, hst, _⟩ := soundTimerIsWrittenButNeverRead
  refine ⟨h.toNat_dt, hst i s t h, ?_⟩
  obtain ⟨u, hu, rfl⟩ := h.exec_eq_next
  exact ⟨u, hu, toNat_countDown u.dt, toNat_countDown u.st, timerPostStep_sameExcept u⟩

/-- Settles O29, by induction on the number of Cycles. -/
theorem delayTimerCountsCycles : Obligations.DelayTimerCountsCycles := by
  intro run instr n hrun
  induction n with
  | zero => rfl
  | succ n ih =>
    have hfirst := ih fun k hk => hrun k (Nat.lt_succ_of_lt hk)
    obtain ⟨hcycle, hdt⟩ := hrun n (Nat.lt_succ_self n)
    have hlast := hcycle.toNat_dt hdt
    omega

/-! ### PC after a Cycle (R112) -/

/-- The zero-extended address is the same number (R83). -/
theorem toNat_zextAddr (nnn : BitVec 12) : (zextAddr nnn).toNat = nnn.toNat :=
  BitVec.toNat_setWidth_of_le (by decide)

/-- The target of JP V0 does not wrap around (R138). -/
theorem toNat_zextAddr_add_zextByte (nnn : BitVec 12) (b : Byte) :
    (zextAddr nnn + zextByte b).toNat = nnn.toNat + b.toNat := by
  have hnnn := nnn.isLt
  have hb := b.isLt
  have hbyte : (zextByte b).toNat = b.toNat := BitVec.toNat_setWidth_of_le (by decide)
  rw [BitVec.toNat_add, toNat_zextAddr, hbyte, Nat.mod_eq_of_lt (by omega)]

/-- A skip after the pre-increment leaves PC at the next instruction or the one after it (R134 to R137, R220, R221). -/
theorem skipIf_preIncrement_pc (b : Bool) (s : State) :
    ((preIncrement s).skipIf b).pc = s.pc + 2 ∨ ((preIncrement s).skipIf b).pc = s.pc + 4 := by
  cases b with
  | false => exact .inl rfl
  | true => exact .inr (BitVec.add_assoc s.pc 2 2)

/-- The execute step of a Cycle leaves PC as the rule says. -/
theorem exec_preIncrement_pcRule (h : exec i (preIncrement s) = .next u) : PcRule i s u := by
  cases i with
  | jp nnn => obtain rfl := Host.Outcome.next.inj h; exact toNat_zextAddr nnn
  | jpV0 nnn => obtain rfl := Host.Outcome.next.inj h; exact toNat_zextAddr_add_zextByte nnn (s.reg 0)
  | call nnn => obtain ⟨_, rfl⟩ := execCall_eq_next.1 h; exact toNat_zextAddr nnn
  | ret =>
    obtain ⟨_, _, hret, _⟩ := stackTouchedOnlyByCallAndRet
    obtain ⟨_, hpop, _⟩ := hret (preIncrement s) u h
    exact hpop
  | seImm | sneImm | seReg | sneReg => obtain rfl := Host.Outcome.next.inj h; exact skipIf_preIncrement_pc _ s
  | skp | sknp => obtain ⟨_, rfl⟩ := skipOnKey_eq_next.1 h; exact skipIf_preIncrement_pc _ s
  | ldVxK x =>
    obtain ⟨_, _, rfl⟩ | ⟨_, rfl⟩ := execLdVxK_eq_next.1 h
    · exact .inl rfl
    · exact .inr (BitVec.add_sub_cancel s.pc 2)
  | _ => exact (exec_keeps_pc_dt h).1 rfl -- PC stays at the pre-increment

/-- The rule speaks of PC alone. -/
theorem PcRule.of_pc_eq (h : PcRule i s u) (hpc : t.pc = u.pc) : PcRule i s t := by
  unfold PcRule
  rwa [hpc]

/-- Settles O30: the execute step leaves PC as the rule says, and the timer post-step keeps it. -/
theorem pcAfterEveryCycle : Obligations.PcAfterEveryCycle := by
  intro i s t h
  obtain ⟨u, hu, rfl⟩ := h.exec_eq_next
  exact (exec_preIncrement_pcRule hu).of_pc_eq (timerPostStep_pc u)

/-! ### The key wait (R120, R223) -/

/-- There is no lowest pressed key exactly when no key is pressed. -/
theorem firstKey_eq_none : firstKey s = none ↔ ∀ k < 16, s.key k = false := by
  simp [firstKey, Fin.forall_iff]

theorem add_two_ne (w : Word) : w + 2 ≠ w := by bv_omega

theorem add_four_ne (w : Word) : w + 4 ≠ w := by bv_omega

/-- A key wait that leaves PC where it was found no key pressed and changes only the timers. -/
theorem CycleOf.ldVxK_rollback {x : Reg} (h : CycleOf (.ldVxK x) s t) (hpc : t.pc = s.pc) :
    (∀ k < 16, s.key k = false) ∧ SameExcept { dt := true, st := true } s t := by
  obtain ⟨u, hu, rfl⟩ := h.exec_eq_next
  obtain ⟨_, _, rfl⟩ | ⟨hnone, rfl⟩ := execLdVxK_eq_next.1 hu
  · exact absurd hpc (add_two_ne s.pc)
  · have hback : (preIncrement s).setPc ((preIncrement s).pc - 2) = s := by
      rw [preIncrement_pc, BitVec.add_sub_cancel]
      rfl
    rw [hback]
    exact ⟨firstKey_eq_none.1 hnone, timerPostStep_sameExcept s⟩

/-- Settles O31: by the rule for PC, what is no transfer and no key wait leaves PC at PC + 2 or PC + 4. -/
theorem onlyKeyWaitRollsPcBack : Obligations.OnlyKeyWaitRollsPcBack := by
  intro i s t h hpc
  have hrule := pcAfterEveryCycle i s t h
  cases i with
  | ldVxK x => exact .inl ⟨x, rfl, h.ldVxK_rollback hpc⟩
  | jp nnn => exact .inr (.inl ⟨nnn, rfl⟩)
  | jpV0 nnn => exact .inr (.inr (.inl ⟨nnn, rfl⟩))
  | call nnn => exact .inr (.inr (.inr (.inl ⟨nnn, rfl⟩)))
  | ret => exact .inr (.inr (.inr (.inr rfl)))
  | seImm | sneImm | seReg | sneReg | skp | sknp =>
    obtain h2 | h4 := hrule
    · exact absurd (h2.symm.trans hpc) (add_two_ne s.pc)
    · exact absurd (h4.symm.trans hpc) (add_four_ne s.pc)
  | _ => exact absurd (hrule.symm.trans hpc) (add_two_ne s.pc)

end Sys2Proof.Machine
end

section
/-! SUPPORT. The skips on a comparison of registers and immediates (41_control.md R134 to R137): what a skip does to PC,
and that it does no more. -/

namespace Sys2Proof.Machine

/-- A skip changes nothing but PC. -/
theorem skipIf_sameExcept (b : Bool) (s : State) : SameExcept { pc := true } s (s.skipIf b) := by
  constructor <;> simp

/-- A meaning that skips on `b` completes and changes only PC: by 2 mod 2^16 when `b` holds, else not at all. -/
theorem exec_skip_spec {i : Instr} {s : State} {b : Bool} {skips stays : Prop} (h : exec i s = .next (s.skipIf b))
    (hskips : skips → b = true) (hstays : stays → b = false) :
    ∃ t, exec i s = .next t ∧ (skips → t.pc.toNat = (s.pc.toNat + 2) % 65536) ∧ (stays → t.pc = s.pc) ∧
      SameExcept { pc := true } s t := by
  refine ⟨s.skipIf b, h, fun hc => ?_, fun hc => ?_, skipIf_sameExcept b s⟩
  · rw [hskips hc]
    exact BitVec.toNat_add s.pc 2
  · rw [hstays hc]
    rfl

/-- Settles O37: SE skips on Vx == kk and SNE on Vx != kk. -/
theorem skipsOnImmediate : Obligations.SkipsOnImmediate := fun _ _ _ =>
  ⟨exec_skip_spec rfl beq_iff_eq.2 beq_eq_false_iff_ne.2, exec_skip_spec rfl bne_iff_ne.2 bne_eq_false_iff_eq.2⟩

/-- Settles O38: SE skips on Vx == Vy and SNE on Vx != Vy. -/
theorem skipsOnRegisters : Obligations.SkipsOnRegisters := fun _ _ _ =>
  ⟨exec_skip_spec rfl beq_iff_eq.2 beq_eq_false_iff_ne.2, exec_skip_spec rfl bne_iff_ne.2 bne_eq_false_iff_eq.2⟩

end Sys2Proof.Machine
end

section
/-! SUPPORT. Register loads and the arithmetic of the ALU (42_alu.md R150 to R153, R158, R159, R161): what a write of one
register and WriteResultAndFlag leave of the whole state, and the sums and differences as numbers. -/

namespace Sys2Proof.Machine

variable (x : Reg) (res : Byte) (flag : Bool) (s : State)

/-! ### Frames -/

/-- A register write changes nothing but its register. -/
theorem setReg_sameExcept : SameExcept { regs := [x] } s (s.setReg x res) := by
  constructor
  case regs => exact fun y hy => State.reg_setReg_ne s x y res (List.ne_of_not_mem_cons hy)
  all_goals simp

/-- WriteResultAndFlag changes nothing but its destination and VF. -/
theorem writeResultAndFlag_sameExcept :
    SameExcept { regs := [x, 15] } s (writeResultAndFlag x res flag s) := by
  constructor
  case regs =>
    intro y hy
    obtain ⟨hx, h15⟩ : y ≠ x ∧ y ≠ 15 := by simpa using hy
    exact reg_other_writeResultAndFlag x res flag s y hx h15
  all_goals simp

/-! ### Result and flag (R150, R151) -/

/-- WriteResultAndFlag leaves result and flag, or the later of the two when VF is the destination. -/
theorem writeResultAndFlag_resultAndFlag :
    ResultAndFlag x res.toNat flag.toNat s (writeResultAndFlag x res flag s) := by
  refine ⟨fun hx => ⟨?_, ?_⟩, ?_, ?_⟩
  · simp [reg_dest_writeResultAndFlag, hx]
  · rw [reg_flag_writeResultAndFlag x res flag s hx, toNat_flagByte]
  · rintro rfl horder
    simp [reg_dest_writeResultAndFlag, horder]
  · rintro rfl horder
    simp [reg_dest_writeResultAndFlag, horder]

variable {x res flag s} {i : Instr}

/-- A meaning that ends in WriteResultAndFlag completes, leaves its result and flag, and changes no more. -/
theorem exec_resultAndFlag_spec {r f : Nat} (h : exec i s = .next (writeResultAndFlag x res flag s))
    (hres : res.toNat = r) (hflag : flag.toNat = f) :
    ∃ t, exec i s = .next t ∧ ResultAndFlag x r f s t ∧ SameExcept { regs := [x, 15] } s t := by
  subst hres hflag
  exact ⟨_, h, writeResultAndFlag_resultAndFlag x res flag s, writeResultAndFlag_sameExcept x res flag s⟩

/-! ### Flags and differences as numbers -/

/-- The carry is 1 exactly when the sum exceeds 255 (R158). -/
theorem toNat_carryFlag (a b : Byte) : (carryFlag a b).toNat = if 255 < a.toNat + b.toNat then 1 else 0 :=
  Bool.cond_decide _ _ _

/-- The no-borrow flag is 1 exactly when the minuend is strictly greater (R159). -/
theorem toNat_noBorrowFlag (a b : Byte) : (noBorrowFlag a b).toNat = if b.toNat < a.toNat then 1 else 0 :=
  Bool.cond_decide _ _ _

/-- The difference mod 256, with the wrap added first. -/
theorem toNat_subResult_eq_wrap_add (a b : Byte) : (subResult a b).toNat = (256 + a.toNat - b.toNat) % 256 := by
  rw [toNat_subResult, Nat.add_comm]

/-! ### The obligations -/

/-- Settles O39: both meanings are one register write. -/
theorem immediateLoadAndAdd : Obligations.ImmediateLoadAndAdd := by
  intro x kk s
  refine ⟨⟨_, rfl, State.reg_setReg_self s x kk, setReg_sameExcept x kk s⟩, ⟨_, rfl, ?_, setReg_sameExcept x _ s⟩⟩
  rw [State.reg_setReg_self, toNat_addResult]

/-- Settles O41: ADD Vx,Vy ends in WriteResultAndFlag of the sum and the carry. -/
theorem addSetsCarry : Obligations.AddSetsCarry := fun x y s =>
  exec_resultAndFlag_spec rfl (toNat_addResult (s.reg x) (s.reg y)) (toNat_carryFlag (s.reg x) (s.reg y))

/-- Settles O42: SUB and SUBN end in WriteResultAndFlag of the difference, with the operands exchanged in SUBN. -/
theorem subtractionsSetNoBorrow : Obligations.SubtractionsSetNoBorrow := fun x y s =>
  ⟨exec_resultAndFlag_spec rfl (toNat_subResult_eq_wrap_add (s.reg x) (s.reg y))
      (toNat_noBorrowFlag (s.reg x) (s.reg y)),
    exec_resultAndFlag_spec rfl (toNat_subResult_eq_wrap_add (s.reg y) (s.reg x))
      (toNat_noBorrowFlag (s.reg y) (s.reg x))⟩

end Sys2Proof.Machine
end

section
/-! SUPPORT. CLS (44_display.md R200): what a write of the framebuffer leaves of the whole state. -/

namespace Sys2Proof.Machine

/-- A framebuffer write changes nothing but the framebuffer. -/
theorem setFb_sameExcept (f : Framebuffer) (s : State) : SameExcept { fb := true } s (s.setFb f) := by
  constructor <;> simp

/-- Settles O50: CLS writes the clear framebuffer, in which no pixel is on. -/
theorem clearScreenTurnsEveryPixelOff : Obligations.ClearScreenTurnsEveryPixelOff := fun s =>
  ⟨s.setFb clearFramebuffer, rfl, fun p _ => pixelOn_clear p, setFb_sameExcept clearFramebuffer s⟩

end Sys2Proof.Machine
end

section
/-! SUPPORT. The key wait (45_timers_keypad.md R223): which key it takes, and what each of its two ends leaves of the
whole state. -/

namespace Sys2Proof.Machine

/-- A PC write changes nothing but PC. -/
theorem setPc_sameExcept (w : Word) (s : State) : SameExcept { pc := true } s (s.setPc w) := by
  constructor <;> simp

variable {x k : Reg} {s t : State}

/-- The ascending scan stops at the pressed key with no pressed key below it. -/
theorem firstKey_eq_some : firstKey s = some k ↔ s.key k.val = true ∧ ∀ j < k.val, s.key j = false := by
  rw [firstKey, ← Fin.find?_eq_find?_finRange, Fin.find?_eq_some_iff]
  exact and_congr_right fun _ => ⟨fun h j hj => h ⟨j, hj.trans k.isLt⟩ hj, fun h j hj => h j.val hj⟩

/-- With a lowest pressed key the execute step writes its index. -/
theorem exec_ldVxK_of_firstKey_some (h : firstKey s = some k) :
    exec (.ldVxK x) s = .next (s.setReg x (BitVec.ofNat 8 k.val)) :=
  execLdVxK_eq_next.2 (.inl ⟨k, h, rfl⟩)

/-- With no key pressed the execute step sets PC back by 2. -/
theorem exec_ldVxK_of_firstKey_none (h : firstKey s = none) :
    exec (.ldVxK x) s = .next (s.setPc (s.pc - 2)) :=
  execLdVxK_eq_next.2 (.inr ⟨h, rfl⟩)

/-- A register's number fits a byte. -/
theorem toNat_ofNat_reg (k : Reg) : (BitVec.ofNat 8 k.val : Byte).toNat = k.val :=
  Nat.mod_eq_of_lt (k.isLt.trans (by decide))

/-- A Cycle of the key wait with no key pressed takes back the pre-increment of PC. -/
theorem CycleOf.ldVxK_pc_of_no_key (h : CycleOf (.ldVxK x) s t) (hkeys : ∀ k < 16, s.key k = false) :
    t.pc = s.pc := by
  obtain ⟨u, hu, rfl⟩ := h.exec_eq_next
  have hnone : firstKey (preIncrement s) = none := firstKey_eq_none.2 hkeys
  obtain rfl := Host.Outcome.next.inj ((exec_ldVxK_of_firstKey_none hnone).symm.trans hu)
  exact BitVec.add_sub_cancel s.pc 2

/-- Settles O57: the execute step ends as the scan finds a key or none, and a Cycle that finds none is back at its own
address, so that only the timer post-step remains. -/
theorem keyWaitTakesTheLowestKey : Obligations.KeyWaitTakesTheLowestKey := by
  intro x s
  refine ⟨fun k hk hpressed hlower => ?_, fun hkeys => ?_, fun hkeys t h => ?_⟩
  · have hfirst : firstKey s = some ⟨k, hk⟩ := firstKey_eq_some.2 ⟨hpressed, hlower⟩
    refine ⟨_, exec_ldVxK_of_firstKey_some hfirst, ?_, setReg_sameExcept x _ s⟩
    rw [State.reg_setReg_self, toNat_ofNat_reg]
  · exact ⟨_, exec_ldVxK_of_firstKey_none (firstKey_eq_none.2 hkeys), rfl, setPc_sameExcept _ s⟩
  · obtain ⟨hdt, hst, _⟩ := timersCountDownOncePerCycle _ s t h
    obtain ⟨_, hframe⟩ := h.ldVxK_rollback (h.ldVxK_pc_of_no_key hkeys)
    exact ⟨hdt nofun, hst nofun, hframe⟩

end Sys2Proof.Machine
end

section
/-! SUPPORT. What a booted machine fetches first: the ROM lies where PC starts (20_memory.md R52, R60,
70_reset_and_hazards.md R272). -/

namespace Sys2Proof.Machine

/-- Bytes stored from PC upward: the first two are the word fetched, the first one high (R52). -/
theorem fetchWord_pokeAll_pc {s : State} (hpc : s.pc.toNat + 1 ≤ 0xFFF) (hi lo : Byte) (rest : List Byte) :
    fetchWord (pokeAll s.pc.toNat (hi :: lo :: rest) s) = .ok (composeWord hi lo) := by
  have hhi : (pokeAll s.pc.toNat (hi :: lo :: rest) s).peek s.pc.toNat = hi :=
    peek_pokeAll_add (k := 0) (by simp) (by omega) s
  have hlo : (pokeAll s.pc.toNat (hi :: lo :: rest) s).peek (s.pc.toNat + 1) = lo :=
    peek_pokeAll_add (k := 1) (by simp) hpc s
  rw [fetchWord_eq_ok, pokeAll_pc, hhi, hlo]
  exact ⟨hpc, rfl⟩

/-- Settles O3: Load stores the ROM from 0x200 upward, which is where reset puts PC. -/
theorem bootedRomIsFetchedFirst : Obligations.BootedRomIsFetchedFirst := by
  intro c hi lo rest hrest
  have hrom : (hi :: lo :: rest).length ≤ 3584 := by simp only [List.length_cons]; omega
  refine ⟨boot_fault c _, ?_⟩
  rw [boot_some_of_le hrom]
  have hpc : (State.resetWith c).pc.toNat = 0x200 := rfl
  have hfetch := fetchWord_pokeAll_pc (s := State.resetWith c) (by omega) hi lo rest
  rwa [hpc] at hfetch

end Sys2Proof.Machine
end

section
/-! SUPPORT. What every execute step leaves unchanged (10_state.md R22 to R30), and that every step and every run stay
in the legal states (R7, R25, R50; 60_exceptions.md R261). -/

namespace Sys2Proof.Machine

variable {i : Instr} {s t : State}

/-! ### The frame of each update -/

theorem sameExcept_self (f : Footprint) (s : State) : SameExcept f s s := by
  constructor <;> simp

/-- A write of I changes nothing but I. -/
theorem setI_sameExcept (w : Word) (s : State) : SameExcept { i := true } s (s.setI w) := by
  constructor <;> simp

/-- A write of DT changes nothing but DT. -/
theorem setDt_sameExcept (b : Byte) (s : State) : SameExcept { dt := true } s (s.setDt b) := by
  constructor <;> simp

/-- A write of ST changes nothing but ST. -/
theorem setSt_sameExcept (b : Byte) (s : State) : SameExcept { st := true } s (s.setSt b) := by
  constructor <;> simp

/-- The pop of RET writes PC and SP; the entry it reads keeps its value (R26). -/
theorem pop_sameExcept (h : (s.sp - 1).toNat < 16) : SameExcept { pc := true, sp := true } s (s.pop h) := by
  constructor <;> simp

/-- The push and jump of CALL write PC, SP and the entry at SP (R26). -/
theorem push_setPc_sameExcept (h : s.sp.toNat < 16) (ret w : Word) :
    SameExcept { pc := true, sp := true, slots := [s.sp.toNat] } s ((s.push h ret).setPc w) := by
  constructor
  case slots =>
    intro j hj hne
    exact Vector.getElem_set_ne h hj (List.ne_of_not_mem_cons hne).symm
  all_goals simp

/-- A draw writes its register and the draw counter. -/
theorem countDraw_setReg_sameExcept (x : Reg) (b : Byte) (s : State) :
    SameExcept { regs := [x], draws := true } s (s.setReg x b).countDraw := by
  constructor
  case regs => exact (setReg_sameExcept x b s).regs
  all_goals simp

/-- What DRW writes: the framebuffer and VF. -/
theorem setFb_setReg_sameExcept (x : Reg) (b : Byte) (f : Framebuffer) (s : State) :
    SameExcept { regs := [x], fb := true } s ((s.setFb f).setReg x b) := by
  constructor
  case regs => exact (setReg_sameExcept x b (s.setFb f)).regs
  all_goals simp

theorem mem_regsTo {x y : Reg} : y ∈ regsTo x ↔ y ≤ x := by
  simp [regsTo]

/-- Bytes loaded from V0 upward, at most as far as Vx, change no other register and nothing else. -/
theorem setRegsFrom_sameExcept {x : Reg} {bs : List Byte} (hlen : bs.length = x.val + 1) (s : State) :
    SameExcept { regs := regsTo x } s (State.setRegsFrom 0 bs s) := by
  constructor
  case regs =>
    intro y hy
    have hxy : x.val < y.val := Fin.not_le.1 fun hle => hy (mem_regsTo.2 hle)
    rw [reg_setRegsFrom, dif_neg (by omega)]
  all_goals simp

/-- The key wait writes its register, or PC. -/
theorem execLdVxK_sameExcept {x : Reg} (h : execLdVxK x s = .next t) :
    SameExcept { regs := [x], pc := true } s t := by
  obtain ⟨k, _, rfl⟩ | ⟨_, rfl⟩ := execLdVxK_eq_next.1 h
  · constructor
    case regs => exact (setReg_sameExcept x _ s).regs
    all_goals simp
  · constructor <;> simp

/-- Settles O9: each meaning ends in an update whose own frame is the instruction's footprint. -/
theorem frameOfEveryInstruction : Obligations.FrameOfEveryInstruction := by
  intro i s t h
  cases i with
  | ret => obtain ⟨_, hsp, rfl⟩ := execRet_eq_next.1 h; exact pop_sameExcept hsp
  | call nnn => obtain ⟨hsp, rfl⟩ := execCall_eq_next.1 h; exact push_setPc_sameExcept hsp s.pc _
  | skp x | sknp x => obtain ⟨_, rfl⟩ := skipOnKey_eq_next.1 h; exact skipIf_sameExcept _ s
  | ldVxK x => exact execLdVxK_sameExcept h
  | drw x y n => obtain ⟨k, _, rfl⟩ := execDrw_eq_next.1 h; exact setFb_setReg_sameExcept 15 _ k.fb s
  | ldB x => obtain ⟨_, rfl⟩ := execLdB_eq_next.1 h; exact pokeAll_sameExcept (bcdDigits (s.reg x)) _ s
  | ldMemVx x =>
    obtain ⟨_, rfl⟩ := execLdMemVx_eq_next.1 h
    have hframe := pokeAll_sameExcept (s.regsUpTo x) (s.indexAddr 0) s
    rwa [length_regsUpTo] at hframe
  | ldVxMem x =>
    obtain ⟨_, rfl⟩ := execLdVxMem_eq_next.1 h
    exact setRegsFrom_sameExcept (by simp) s
  | cls => obtain rfl := Host.Outcome.next.inj h; exact setFb_sameExcept _ s
  | sys | nop8 | nopE | nopF => obtain rfl := Host.Outcome.next.inj h; exact sameExcept_self _ s
  | jp | jpV0 => obtain rfl := Host.Outcome.next.inj h; exact setPc_sameExcept _ s
  | seImm | sneImm | seReg | sneReg => obtain rfl := Host.Outcome.next.inj h; exact skipIf_sameExcept _ s
  | ldImm x | addImm x | ldReg x | orReg x | andReg x | xorReg x | ldVxDt x =>
    obtain rfl := Host.Outcome.next.inj h
    exact setReg_sameExcept x _ s
  | addReg x | subReg x | shr x | subn x | shl x =>
    obtain rfl := Host.Outcome.next.inj h
    exact writeResultAndFlag_sameExcept x _ _ s
  | ldI | addI | ldF => obtain rfl := Host.Outcome.next.inj h; exact setI_sameExcept _ s
  | rnd x => obtain rfl := Host.Outcome.next.inj h; exact countDraw_setReg_sameExcept x _ s
  | ldDtVx => obtain rfl := Host.Outcome.next.inj h; exact setDt_sameExcept _ s
  | ldStVx => obtain rfl := Host.Outcome.next.inj h; exact setSt_sameExcept _ s

/-! ### Legal states -/

/-- After an execute step memory is as before, or consecutive bytes have been stored in it. -/
theorem exec_mem_cases (h : exec i s = .next t) : t.mem = s.mem ∨ ∃ a bs, t = pokeAll a bs s := by
  cases i with
  | ldB x => obtain ⟨_, rfl⟩ := execLdB_eq_next.1 h; exact .inr ⟨_, _, rfl⟩
  | ldMemVx x => obtain ⟨_, rfl⟩ := execLdMemVx_eq_next.1 h; exact .inr ⟨_, _, rfl⟩
  | ret => obtain ⟨_, _, rfl⟩ := execRet_eq_next.1 h; exact .inl rfl
  | call nnn => obtain ⟨_, rfl⟩ := execCall_eq_next.1 h; exact .inl rfl
  | skp x | sknp x => obtain ⟨_, rfl⟩ := skipOnKey_eq_next.1 h; exact .inl (State.skipIf_mem s _)
  | ldVxK x => obtain ⟨_, _, rfl⟩ | ⟨_, rfl⟩ := execLdVxK_eq_next.1 h <;> exact .inl rfl
  | drw x y n => obtain ⟨_, _, rfl⟩ := execDrw_eq_next.1 h; exact .inl rfl
  | ldVxMem x => obtain ⟨_, rfl⟩ := execLdVxMem_eq_next.1 h; exact .inl (setRegsFrom_mem _ 0 s)
  | _ =>
    -- every other meaning answers one next state, made of the operations of Laws/State and Laws/Flags
    obtain rfl := Host.Outcome.next.inj h
    exact .inl (by simp)

/-- SP after CALL, below depth 16, as a number. -/
theorem toNat_sp_add_one (h : s.sp.toNat < 16) : (s.sp + 1).toNat = s.sp.toNat + 1 := by
  bv_omega

/-- SP stays at most 16: CALL pushes only below 16, and no other instruction raises SP (R25, D10). -/
theorem exec_keeps_sp_le (hsp : s.sp.toNat ≤ 16) (h : exec i s = .next t) : t.sp.toNat ≤ 16 := by
  cases i with
  | ret => obtain ⟨_, hlt, rfl⟩ := execRet_eq_next.1 h; exact hlt.le
  | call nnn =>
    obtain ⟨hlt, rfl⟩ := execCall_eq_next.1 h
    exact (toNat_sp_add_one hlt).trans_le hlt
  | _ => rwa [(frameOfEveryInstruction _ s t h).sp rfl]

/-- Every execute step keeps the legal states. -/
theorem State.Inv.exec (hs : s.Inv) (h : exec i s = .next t) : t.Inv := by
  obtain ⟨hconfig, _, _⟩ := exec_keeps_config_keys_fault h
  refine { config := by rw [hconfig]; exact hs.config, sp := exec_keeps_sp_le hs.sp h, mem := ?_ }
  obtain hmem | ⟨a, bs, rfl⟩ := exec_mem_cases h
  · rw [hconfig, hmem]
    exact hs.mem
  · exact pokeAll_wf bs a s hs.mem

/-- Settles O5: a step leaves the state, records a fault on it, or runs one execute step between the pre-increment and
the timer post-step, which are no part of legality. That SP stays at most 16 rests on D10; the canonical form of memory
is the model's (log entry 7). -/
theorem everyStepKeepsLegality : Obligations.EveryStepKeepsLegality := by
  intro s t hs h
  obtain ⟨_, rfl⟩ | ⟨_, _, rfl⟩ | ⟨op, _, _, ⟨u, hu, rfl⟩ | ⟨f, _, rfl⟩⟩ := step_cases h
  · exact hs
  · exact ⟨hs.config, hs.sp, hs.mem⟩
  · have hpre : (preIncrement s).Inv := ⟨hs.config, hs.sp, hs.mem⟩
    have hu' := hpre.exec hu
    exact ⟨hu'.config, hu'.sp, hu'.mem⟩
  · exact ⟨hs.config, hs.sp, hs.mem⟩

/-! ### Runs -/

/-- Every host action answers a legal state from a legal state. -/
theorem act_keeps_inv (s : State) (a : Action) (hs : s.Inv) : ∃ t, act s a = .next t ∧ t.Inv := by
  cases a with
  | keypad k => exact ⟨setKeys k s, rfl, hs.config, hs.sp, hs.mem⟩
  | cycle =>
    obtain ⟨t, ht⟩ := everyCycleAnswersANextState s hs
    exact ⟨t, ht, everyStepKeepsLegality s t hs ht⟩

/-- Boot with legal parameters gives a legal state, whatever becomes of the Load. -/
theorem boot_inv {c : Config} (rom : Option (List Byte)) (hc : c.legal) : (boot c rom).Inv := by
  have hreset := resetIsLegal c hc
  cases rom with
  | none => exact hreset
  | some rom =>
    obtain ⟨_, h⟩ | ⟨_, h⟩ := afterLoad_cases rom (State.resetWith c) <;> rw [boot, h]
    · have hmem := pokeAll_wf rom 0x200 _ hreset.mem
      exact ⟨by rw [pokeAll_config]; exact hreset.config, by rw [pokeAll_sp]; exact hreset.sp, hmem⟩
    · exact hreset

/-- Settles O60: legality is kept by every host action, so by every run; the state a run answers is the one its final
state can be. -/
theorem everyRunEndsInALegalState : Obligations.EveryRunEndsInALegalState := by
  refine ⟨runActions_keeps act_keeps_inv, fun c rom as hc => ?_⟩
  obtain ⟨t, ht, hinv⟩ := runActions_keeps act_keeps_inv as (boot c rom) (boot_inv rom hc)
  refine ⟨t, ht, hinv, fun u => ?_⟩
  rw [FinalState, ht, Host.Outcome.next.injEq, eq_comm (a := t)]
  exact and_congr_right fun e => by rw [e]

end Sys2Proof.Machine
end

section
/-! SUPPORT. Jumps, calls and returns (41_control.md R131 to R133, R138), the register moves, logic, shifts and the random
byte (42_alu.md R154 to R163), and the timer and key instructions (45_timers_keypad.md R220 to R225). -/

namespace Sys2Proof.Machine

variable {s t : State}

/-! ### Control transfer -/

/-- Settles O33: both meanings are one write of PC, and neither target wraps around (D35). -/
theorem jumpsSetPc : Obligations.JumpsSetPc := fun nnn s =>
  ⟨⟨_, rfl, toNat_zextAddr nnn, setPc_sameExcept _ s⟩,
    ⟨_, rfl, toNat_zextAddr_add_zextByte nnn (s.reg 0), setPc_sameExcept _ s⟩⟩

/-- Settles O34: below depth 16 CALL is a push and a jump, and SP = 16 is the fault's own condition (D10). -/
theorem callPushesTheReturnAddress : Obligations.CallPushesTheReturnAddress := by
  intro nnn s
  refine ⟨fun h => ?_, fun h16 => execCall_eq_fault.2 ⟨BitVec.eq_of_toNat_eq h16, rfl⟩⟩
  exact ⟨_, execCall_eq_next.2 ⟨h, rfl⟩, Vector.getElem_set_self h, toNat_sp_add_one h, toNat_zextAddr nnn,
    push_setPc_sameExcept h s.pc _⟩

/-- Settles O35: from depth 1 to 16 RET is a pop, and SP = 0 is the fault's own condition (D10). -/
theorem retPopsTheReturnAddress : Obligations.RetPopsTheReturnAddress := by
  intro s
  refine ⟨fun h => ?_, fun h0 => execRet_eq_fault.2 ⟨BitVec.eq_of_toNat_eq h0, rfl⟩⟩
  obtain ⟨hpos, hle⟩ := h
  have hne : s.sp ≠ 0 := by bv_omega
  obtain ⟨_, hsub⟩ := toNat_sp_sub_one hne
  have hlt : (s.sp - 1).toNat < 16 := by omega
  refine ⟨_, execRet_eq_next.2 ⟨hne, hlt, rfl⟩, ?_, ?_, pop_sameExcept hlt⟩
  · rw [State.pop_pc, getElem_congr_idx hsub]
  · rw [State.pop_sp]
    omega

/-- Settles O36: SP less 1 is again the depth at the CALL, and there the stack holds the PC that it pushed. -/
theorem retAfterCallRestoresPc : Obligations.RetAfterCallRestoresPc := by
  intro nnn s t u h hsp hstack
  obtain ⟨hlt, rfl⟩ := execCall_eq_next.1 h
  rw [State.setPc_sp, State.push_sp] at hsp
  rw [State.setPc_stack, State.push_stack] at hstack
  have hback : u.sp - 1 = s.sp := by rw [hsp, BitVec.add_sub_cancel]
  have hne : u.sp ≠ 0 := by bv_omega
  have htop : (u.sp - 1).toNat < 16 := by rwa [hback]
  refine ⟨_, execRet_eq_next.2 ⟨hne, htop, rfl⟩, ?_, hback⟩
  rw [State.pop_pc, getElem_congr_idx (congrArg BitVec.toNat hback)]
  simp [hstack]

/-! ### Registers and ALU -/

/-- Settles O40: each meaning is one register write, of a byte that is computed bit by bit. -/
theorem moveAndLogic : Obligations.MoveAndLogic := by
  intro x y s
  refine ⟨⟨_, rfl, State.reg_setReg_self s x _, setReg_sameExcept x _ s⟩,
    ⟨_, rfl, fun k _ => ?_, setReg_sameExcept x _ s⟩, ⟨_, rfl, fun k _ => ?_, setReg_sameExcept x _ s⟩,
    ⟨_, rfl, fun k _ => ?_, setReg_sameExcept x _ s⟩⟩
  · rw [State.reg_setReg_self, BitVec.getLsbD_or]
  · rw [State.reg_setReg_self, BitVec.getLsbD_and]
  · rw [State.reg_setReg_self, BitVec.getLsbD_xor, Bool.bne_eq_xor]

/-- Settles O43: both shifts end in WriteResultAndFlag of the shifted byte and the bit shifted out; neither meaning reads
Vy (D7). -/
theorem shiftsMoveOneBit : Obligations.ShiftsMoveOneBit := fun x _ s =>
  ⟨exec_resultAndFlag_spec rfl (toNat_shrResult (s.reg x)) (toNat_shrFlag (s.reg x)),
    exec_resultAndFlag_spec rfl (toNat_shlResult (s.reg x)) (toNat_shlFlag (s.reg x))⟩

/-- Settles O44: RND writes the next draw, masked, and counts it; the draw itself is a free value (log entry 2, D21). -/
theorem randomByteIsMasked : Obligations.RandomByteIsMasked := by
  intro x kk s
  refine ⟨_, rfl, fun k _ => ?_, rfl, countDraw_setReg_sameExcept x _ s⟩
  rw [State.reg_countDraw, State.reg_setReg_self, BitVec.getLsbD_and]

/-- The zero-extended byte is the same number (R83). -/
theorem toNat_zextByte (b : Byte) : (zextByte b).toNat = b.toNat :=
  BitVec.toNat_setWidth_of_le (by decide)

/-- Settles O45: each meaning is one write of I, of a 16-bit sum. -/
theorem indexRegisterWrites : Obligations.IndexRegisterWrites := by
  intro nnn x s
  refine ⟨⟨_, rfl, toNat_zextAddr nnn, setI_sameExcept _ s⟩, ⟨_, rfl, ?_, setI_sameExcept _ s⟩,
    ⟨_, rfl, BitVec.toNat_ofNat _ 16, setI_sameExcept _ s⟩⟩
  rw [State.setI_i, BitVec.toNat_add, toNat_zextByte]

/-! ### Timers and keypad -/

/-- Settles O58: each meaning is one write of a register or a timer. -/
theorem timerMoves : Obligations.TimerMoves := fun x s =>
  ⟨⟨_, rfl, State.reg_setReg_self s x s.dt, setReg_sameExcept x _ s⟩, ⟨_, rfl, rfl, setDt_sameExcept _ s⟩,
    ⟨_, rfl, rfl, setSt_sameExcept _ s⟩⟩

/-- Settles O28: the post-step counts down what the execute step left in the timer (R117), which for the written timer is
Vx; LD Vx,DT has copied DT before it. -/
theorem writtenTimerCountsDownInItsOwnCycle : Obligations.WrittenTimerCountsDownInItsOwnCycle := by
  intro x s t
  refine ⟨fun h => ?_, fun h => ?_, fun h => ?_⟩
  all_goals
    obtain ⟨hdt, hst, _⟩ := timersCountDownOncePerCycle _ s t h
    obtain ⟨u, hu, rfl⟩ := h.exec_eq_next
    obtain rfl := Host.Outcome.next.inj hu
  · exact ⟨toNat_countDown (s.reg x), hst nofun⟩
  · exact ⟨toNat_countDown (s.reg x), hdt nofun⟩
  · exact ⟨State.reg_setReg_self _ x s.dt, hdt nofun⟩

/-- A skip on a key faults exactly with V[x] above 15 (R220, R221, D15). -/
theorem skipOnKey_eq_fault {down : Bool} {x : Reg} {f : Fault} :
    skipOnKey down x s = .fault f ↔ 15 < (s.reg x).toNat ∧ f = .keyIndex (s.reg x) := by
  unfold skipOnKey
  split
  · next h => simp [h, raiseFault, eq_comm (a := f)]
  · next h => exact ⟨nofun, fun e => absurd e.1 h⟩

/-- With V[x] at most 15 a skip on a key completes and skips exactly when the key has the level `down`. -/
theorem exec_skipOnKey_spec {i : Instr} {down : Bool} {x : Reg} (h : exec i s = skipOnKey down x s)
    (hle : (s.reg x).toNat ≤ 15) :
    ∃ t, exec i s = .next t ∧ SameExcept { pc := true } s t ∧
      (s.key (s.reg x).toNat = down → t.pc.toNat = (s.pc.toNat + 2) % 65536) ∧
      (s.key (s.reg x).toNat = !down → t.pc = s.pc) := by
  obtain ⟨t, ht, hskips, hstays, hframe⟩ := exec_skip_spec (h.trans (skipOnKey_eq_next.2 ⟨hle, rfl⟩))
    (stays := s.key (s.reg x).toNat = !down) beq_iff_eq.2 fun hlevel => by simp [hlevel]
  exact ⟨t, ht, hframe, hskips, hstays⟩

/-- Settles O56: with V[x] at most 15 SKP and SKNP skip on the key's level, and above 15 they fault (D15). -/
theorem skipsOnKeys : Obligations.SkipsOnKeys := fun _ _ =>
  ⟨fun hle => ⟨exec_skipOnKey_spec (down := true) rfl hle, exec_skipOnKey_spec (down := false) rfl hle⟩,
    fun hgt => ⟨skipOnKey_eq_fault.2 ⟨hgt, rfl⟩, skipOnKey_eq_fault.2 ⟨hgt, rfl⟩⟩⟩

end Sys2Proof.Machine
end

section
/-! SUPPORT. The bounds of memory, and the instructions that store and load bytes at I (20_memory.md R54, R55, R63;
43_index_memory.md R183 to R185). -/

namespace Sys2Proof.Machine

variable {s t : State} {f : Fault} {x : Reg}

/-! ### One byte and one word -/

/-- Settles O15: the accesses' own conditions, read in both directions. -/
theorem accessesFaultExactlyOutOfRange : Obligations.AccessesFaultExactlyOutOfRange := by
  intro s a v
  refine ⟨fun h => ⟨memRead_eq_error.2 ⟨h, rfl⟩, memWrite_eq_error.2 ⟨h, rfl⟩⟩,
    fun h => ⟨memRead_eq_ok.2 ⟨h, rfl⟩, _, memWrite_eq_ok.2 ⟨h, rfl⟩⟩, fun h => ?_, fun h => ?_⟩
  · exact fetchWord_eq_error.2 ⟨by omega, rfl⟩
  · exact ⟨_, fetchWord_eq_ok.2 ⟨by omega, rfl⟩⟩

/-- The byte just stored at an existing address is the one read there. -/
theorem peek_poke_self {a : Nat} (ha : a ≤ 0xFFF) (s : State) (v : Byte) : (s.poke a v).peek a = v := by
  rw [State.peek_poke, if_pos ⟨ha, rfl⟩]

/-- Settles O16: the word fetched is composed of the bytes at PC and PC + 1, the first one high (R52). -/
theorem storedByteIsFetched : Obligations.StoredByteIsFetched := by
  intro s t a v h hpc
  obtain ⟨ha, rfl⟩ := memWrite_eq_ok.1 h
  have hfetch := fetchWord_eq_ok.2 ⟨show (s.poke a v).pc.toNat + 1 ≤ 0xFFF by simpa using hpc, rfl⟩
  refine ⟨?_, ?_⟩ <;> rintro rfl <;> refine ⟨_, hfetch, ?_⟩ <;> rw [toNat_composeWord, State.poke_pc]
  · have hlo := ((s.poke s.pc.toNat v).peek (s.pc.toNat + 1)).isLt
    rw [peek_poke_self ha]
    omega
  · rw [peek_poke_self ha]
    omega

/-! ### Where the stores and the load fault (R55, D11) -/

/-- A store of consecutive bytes faults exactly when one lies above 0xFFF, at the first such address. -/
theorem memWriteAll_eq_error {a : Nat} {bs : List Byte} :
    memWriteAll a bs s = .error f ↔ (bs ≠ [] ∧ 0x1000 < a + bs.length) ∧ f = .memOob (max a 0x1000) := by
  rw [memWriteAll_eq]
  split
  · next h => exact ⟨nofun, fun ⟨⟨hne, hgt⟩, _⟩ => absurd (h.resolve_left hne) (Nat.not_le.2 hgt)⟩
  · next h =>
    obtain ⟨hne, hgt⟩ := not_or.1 h
    rw [Except.error.injEq, eq_comm (a := f)]
    exact ⟨fun e => ⟨⟨hne, Nat.lt_of_not_le hgt⟩, e⟩, fun e => e.2⟩

/-- LD B faults exactly with I + 2 above 0xFFF (R183). -/
theorem execLdB_eq_fault :
    execLdB x s = .fault f ↔ 0x1000 < s.indexAddr 0 + 3 ∧ f = .memOob (max (s.indexAddr 0) 0x1000) := by
  simp [execLdB, conclude_eq_fault, memWriteAll_eq_error, bcdDigits]

/-- LD [I], Vx faults exactly with I + x above 0xFFF (R184). -/
theorem execLdMemVx_eq_fault :
    execLdMemVx x s = .fault f ↔
      0x1000 < s.indexAddr 0 + (x.val + 1) ∧ f = .memOob (max (s.indexAddr 0) 0x1000) := by
  have hne : s.regsUpTo x ≠ [] := List.ne_nil_of_length_pos (by simp [length_regsUpTo])
  simp [execLdMemVx, conclude_eq_fault, memWriteAll_eq_error, length_regsUpTo, hne]

/-- LD Vx, [I] faults exactly with I + x above 0xFFF (R185). -/
theorem execLdVxMem_eq_fault :
    execLdVxMem x s = .fault f ↔
      0x1000 < s.indexAddr 0 + (x.val + 1) ∧ f = .memOob (max (s.indexAddr 0) 0x1000) := by
  unfold execLdVxMem
  rw [memReadAll_eq]
  by_cases h : s.indexAddr 0 + (x.val + 1) ≤ 0x1000
  · simp [h]
  · simp [h, raiseFault, eq_comm (a := f)]
    omega

/-! ### The stores and the load -/

/-- Settles O46: the three digits, each below 10, are stored in a row, or the first address out of range is the
fault's. -/
theorem bcdDigitsAreStored : Obligations.BcdDigitsAreStored := by
  intro x s
  refine ⟨fun h => ?_, fun h => execLdB_eq_fault.2 ⟨Nat.succ_lt_succ h, rfl⟩⟩
  have hnext := (execLdB_eq_next (x := x)).2 ⟨Nat.succ_le_succ h, rfl⟩
  have hdigit (k : Nat) (hk : k < 3) :
      (pokeAll s.i.toNat (bcdDigits (s.reg x)) s).peek (s.i.toNat + k) = (bcdDigits (s.reg x))[k]'hk :=
    peek_pokeAll_add hk (by omega) s
  have hv := (s.reg x).isLt
  refine ⟨_, hnext, ?_, ?_, ?_, frameOfEveryInstruction (.ldB x) s _ hnext⟩
  · exact (congrArg BitVec.toNat (hdigit 0 (by decide))).trans (Nat.mod_eq_of_lt (by omega))
  · exact (congrArg BitVec.toNat (hdigit 1 (by decide))).trans (Nat.mod_eq_of_lt (by omega))
  · exact (congrArg BitVec.toNat (hdigit 2 (by decide))).trans (Nat.mod_eq_of_lt (by omega))

/-- A register dumped lies at I plus its number (R184). -/
theorem peek_dump {k : Reg} (hk : k ≤ x) (hmem : s.i.toNat + x.val ≤ 0xFFF) :
    (pokeAll s.i.toNat (s.regsUpTo x) s).peek (s.i.toNat + k.val) = s.reg k := by
  have hkx : k.val ≤ x.val := hk
  rw [peek_pokeAll_add (by rw [length_regsUpTo]; omega) (by omega), getElem_regsUpTo]

/-- A register loaded holds the byte at I plus its number (R185). -/
theorem reg_load {k : Reg} (hk : k ≤ x) :
    (State.setRegsFrom 0 ((List.range (x.val + 1)).map fun j => s.peek (s.i.toNat + j)) s).reg k =
      s.peek (s.i.toNat + k.val) := by
  have hkx : k.val ≤ x.val := hk
  rw [reg_setRegsFrom, dif_pos (by simp; omega)]
  simp

/-- Settles O47: each register of V0 to Vx is stored in its place, or the first address out of range is the fault's. -/
theorem registersAreDumped : Obligations.RegistersAreDumped := by
  intro x s
  refine ⟨fun h => ?_, fun h => execLdMemVx_eq_fault.2 ⟨Nat.succ_lt_succ h, rfl⟩⟩
  have hnext := execLdMemVx_eq_next.2 ⟨Nat.succ_le_succ h, rfl⟩
  exact ⟨_, hnext, fun k hk => peek_dump hk h, frameOfEveryInstruction (.ldMemVx x) s _ hnext⟩

/-- Settles O48: each register of V0 to Vx is loaded from its place, or the first address out of range is the fault's. -/
theorem registersAreLoaded : Obligations.RegistersAreLoaded := by
  intro x s
  refine ⟨fun h => ?_, fun h => execLdVxMem_eq_fault.2 ⟨Nat.succ_lt_succ h, rfl⟩⟩
  have hnext := execLdVxMem_eq_next.2 ⟨Nat.succ_le_succ h, rfl⟩
  exact ⟨_, hnext, fun k hk => reg_load hk, frameOfEveryInstruction (.ldVxMem x) s _ hnext⟩

/-- Settles O49: the load reads each register's byte where the dump stored it, from the same I. -/
theorem loadRestoresADump : Obligations.LoadRestoresADump := by
  intro x s t u h hi hpeek
  obtain ⟨hmem, rfl⟩ : s.i.toNat + (x.val + 1) ≤ 0x1000 ∧ _ := execLdMemVx_eq_next.1 h
  have hsame : u.i = s.i := by simpa using hi
  have hle : u.i.toNat + x.val ≤ 0xFFF := by rw [hsame]; omega
  obtain ⟨r, hr, hload, _⟩ := (registersAreLoaded x u).1 hle
  refine ⟨r, hr, fun k hk => ?_⟩
  rw [hload k hk, hpeek, hsame]
  exact peek_dump hk (by omega)

end Sys2Proof.Machine
end

section
/-! SUPPORT. DRW (44_display.md R201 to R207): a sprite's positions go to different pixels, so drawing it flips exactly
the covered ones; and the first row that faults decides the fault (60_exceptions.md R243). -/

namespace Sys2Proof.Machine

variable {edge : DrawEdge} {s t : State} {x y : Reg} {n : BitVec 4} {p row col : Nat} {f : Fault}

/-! ### Placing one position (R204) -/

/-- A position goes to a pixel exactly as its mode says. -/
theorem place_eq_pixel {c r : Nat} : place edge c r = .pixel p ↔ Targets edge c r p := by
  cases edge with
  | flat => simp only [place, Targets]; split <;> simp <;> omega
  | clip => simp only [place, Targets]; split <;> simp <;> omega
  | wrap => simp [place, Targets, eq_comm]

/-- A position leaves the framebuffer exactly under `flat` and past pixel 2047. -/
theorem place_eq_outside {c r : Nat} :
    place edge c r = .outside p ↔ p = r * 64 + c ∧ edge = .flat ∧ 2047 < r * 64 + c := by
  refine ⟨fun h => ?_, ?_⟩
  · obtain ⟨hedge, rfl, hgt⟩ := place_outside h
    exact ⟨rfl, hedge, hgt⟩
  · rintro ⟨rfl, rfl, hgt⟩
    exact if_neg (Nat.not_le.2 hgt)

/-- Two positions of one sprite that go to one pixel are the same: they are less than a screen row and less than the
screen's height apart, so that not even wrapping brings them together (R203). -/
theorem Targets.position_unique {x0 y0 col' row' : Nat} (hcol : col < 8) (hcol' : col' < 8) (hrow : row < 15)
    (hrow' : row' < 15) (h : Targets edge (x0 + col) (y0 + row) p) (h' : Targets edge (x0 + col') (y0 + row') p) :
    col = col' ∧ row = row' := by
  cases edge <;> simp only [Targets] at h h' <;> omega

/-- Settles O55: a placed pixel lies in the framebuffer, and its position within the sprite is unique. -/
theorem spritePositionsGoToDistinctPixels : Obligations.SpritePositionsGoToDistinctPixels := by
  intro edge x0 y0 col col' row row' p _ _ hcol hcol' hrow hrow' h
  refine ⟨place_lt h, fun h' => ?_⟩
  exact (place_eq_pixel.1 h).position_unique hcol hcol' hrow hrow' (place_eq_pixel.1 h')

/-! ### The pixels of a sprite -/

/-- The pixels that DRW Vx, Vy, n places on bits on, in the order of drawing. -/
def drawnPixels (s : State) (x y : Reg) (n : BitVec 4) : List Nat :=
  spritePixels s ((s.reg x).toNat % 64) ((s.reg y).toNat % 32) (List.range n.toNat)

theorem placedPixel_eq_some {b : Byte} {x0 r : Nat} :
    placedPixel edge b x0 r col = some p ↔ spriteBit b col = true ∧ Targets edge (x0 + col) r p := by
  rw [← place_eq_pixel, placedPixel]
  split
  · next hbit => cases place edge (x0 + col) r <;> simp [hbit]
  · next hbit => simp [hbit]

theorem mem_rowPixels {b : Byte} {x0 r : Nat} :
    p ∈ rowPixels edge b x0 r (List.range 8) ↔
      ∃ col < 8, spriteBit b col = true ∧ Targets edge (x0 + col) r p := by
  simp only [rowPixels, List.mem_filterMap, List.mem_range, placedPixel_eq_some]

/-- The pixels drawn are the covered ones. -/
theorem mem_drawnPixels : p ∈ drawnPixels s x y n ↔ Covers s x y n p := by
  simp only [drawnPixels, spritePixels, List.mem_flatMap, List.mem_range, mem_rowPixels, Covers, SpriteOn]
  constructor
  · rintro ⟨row, hrow, col, hcol, hbit, hp⟩
    exact ⟨row, col, ⟨hrow, hcol, hbit⟩, hp⟩
  · rintro ⟨row, col, ⟨hrow, hcol, hbit⟩, hp⟩
    exact ⟨row, hrow, col, hcol, hbit, hp⟩

theorem Covers.lt (h : Covers s x y n p) : p < 2048 := by
  obtain ⟨_, _, _, hp⟩ := h
  exact place_lt (place_eq_pixel.2 hp)

theorem row_lt_fifteen (h : row < n.toNat) : row < 15 := by
  have hn := n.isLt
  omega

/-- No pixel is drawn twice: neither within a row nor in two rows. -/
theorem nodup_drawnPixels : (drawnPixels s x y n).Nodup := by
  rw [drawnPixels, spritePixels, List.nodup_flatMap]
  refine ⟨fun row hrow => ?_, List.nodup_range.imp_of_mem fun {row row'} hrow hrow' hne p hp hp' => ?_⟩
  · have h15 := row_lt_fifteen (List.mem_range.1 hrow)
    refine List.pairwise_filterMap.2 (List.nodup_range.imp_of_mem fun {col col'} hcol hcol' hne p hp p' hp' => ?_)
    rintro rfl
    exact hne ((placedPixel_eq_some.1 hp).2.position_unique (List.mem_range.1 hcol) (List.mem_range.1 hcol') h15 h15
      (placedPixel_eq_some.1 hp').2).1
  · obtain ⟨col, hcol, _, hat⟩ := mem_rowPixels.1 hp
    obtain ⟨col', hcol', _, hat'⟩ := mem_rowPixels.1 hp'
    exact hne (hat.position_unique hcol hcol' (row_lt_fifteen (List.mem_range.1 hrow))
      (row_lt_fifteen (List.mem_range.1 hrow')) hat').2

/-! ### The outcomes of DRW -/

/-- Row `row` of the sprite faults: its byte lies above 0xFFF, or an on bit leaves the framebuffer (R55, R204). -/
def RowFaults (s : State) (x y : Reg) (n : BitVec 4) (row : Nat) : Prop :=
  0xFFF < s.i.toNat + row ∨ ∃ col, LeavesScreen s x y n row col

/-- `f` is the fault of the first row that faults: its byte before its pixels, the pixels left to right (R243, D29). -/
def FirstFault (s : State) (x y : Reg) (n : BitVec 4) (f : Fault) : Prop :=
  ∃ row < n.toNat,
    (∀ q < row, ¬ RowFaults s x y n q) ∧
    ((0xFFF < s.i.toNat + row ∧ f = .memOob (s.i.toNat + row)) ∨
     (s.i.toNat + row ≤ 0xFFF ∧ ∃ col, LeavesScreen s x y n row col ∧ (∀ c < col, ¬ LeavesScreen s x y n row c) ∧
       f = .drawOob (spriteRow s y row * 64 + spriteCol s x col)))

/-- DRW's fault condition holds exactly when a row faults. -/
theorem faultCause_drw : FaultCause (.drw x y n) s ↔ ∃ row < n.toNat, RowFaults s x y n row := by
  constructor
  · rintro (⟨row, hrow, hmem⟩ | ⟨row, col, hleaves⟩)
    · exact ⟨row, hrow, .inl hmem⟩
    · exact ⟨row, hleaves.1.1, .inr ⟨col, hleaves⟩⟩
  · rintro ⟨row, hrow, hmem | ⟨col, hleaves⟩⟩
    · exact .inl ⟨row, hrow, hmem⟩
    · exact .inr ⟨row, col, hleaves⟩

/-- A column is outside for the drawing loop exactly when its on bit leaves the screen. -/
theorem colOutside_iff (hrow : row < n.toNat) (hcol : col < 8) :
    colOutside s.config.drawEdge (s.peek (s.indexAddr row)) ((s.reg x).toNat % 64) ((s.reg y).toNat % 32 + row) col ↔
      LeavesScreen s x y n row col := by
  simp only [colOutside, place_eq_outside, exists_eq_left]
  exact ⟨fun ⟨hbit, hout⟩ => ⟨⟨hrow, hcol, hbit⟩, hout⟩, fun ⟨⟨_, _, hbit⟩, hout⟩ => ⟨hbit, hout⟩⟩

/-- A row faults in the drawing loop exactly when it faults. -/
theorem rowFaults_iff (hrow : row < n.toNat) :
    rowFaults s ((s.reg x).toNat % 64) ((s.reg y).toNat % 32) row ↔ RowFaults s x y n row := by
  refine or_congr_right ⟨fun ⟨col, hcol, h⟩ => ⟨col, (colOutside_iff hrow hcol).1 h⟩, fun ⟨col, h⟩ => ?_⟩
  have hcol : col < 8 := h.1.2.1
  exact ⟨col, hcol, (colOutside_iff hrow hcol).2 h⟩

theorem range_eq_append_cons {m : Nat} {before after : List Nat} (h : List.range m = before ++ row :: after) :
    before = List.range row ∧ row < m := by
  rw [List.range_eq_range', List.range'_eq_append_iff] at h
  obtain ⟨k, hk, hbefore, hafter⟩ := h
  obtain ⟨hrow, hpos, _⟩ := List.range'_eq_cons_iff.1 hafter.symm
  obtain rfl : k = row := by omega
  exact ⟨by rw [hbefore, List.range_eq_range'], by omega⟩

/-- Everything DRW's drawing can do: no row faults and the covered pixels are painted, or the first row that faults
faults. -/
theorem drawSprite_cases (x y : Reg) (n : BitVec 4) (s : State) :
    (drawSprite x y n s = .ok (paint (drawnPixels s x y n) ⟨s.fb, false⟩) ∧ ¬ FaultCause (.drw x y n) s) ∨
    ∃ f, drawSprite x y n s = .error f ∧ FirstFault s x y n f := by
  obtain ⟨hok, hnone⟩ | ⟨before, row, after, hrange, hnone, hfault⟩ :=
    drawRows_cases s ((s.reg x).toNat % 64) ((s.reg y).toNat % 32) (List.range n.toNat) ⟨s.fb, false⟩
  · refine .inl ⟨hok, fun hcause => ?_⟩
    obtain ⟨row, hrow, h⟩ := faultCause_drw.1 hcause
    exact hnone row (List.mem_range.2 hrow) ((rowFaults_iff hrow).2 h)
  · obtain ⟨rfl, hrow⟩ := range_eq_append_cons hrange
    have hfirst (q : Nat) (hq : q < row) : ¬ RowFaults s x y n q := fun h =>
      hnone q (List.mem_range.2 hq) ((rowFaults_iff (hq.trans hrow)).2 h)
    refine .inr ?_
    obtain ⟨hmem, herror⟩ | ⟨hmem, col, hcol, p, hleft, hbit, hout, herror⟩ := hfault
    · exact ⟨_, herror, row, hrow, hfirst, .inl ⟨hmem, rfl⟩⟩
    · obtain ⟨rfl, hflat, hgt⟩ := place_eq_outside.1 hout
      refine ⟨_, herror, row, hrow, hfirst, .inr ⟨hmem, col, ⟨⟨hrow, hcol, hbit⟩, hflat, hgt⟩, fun c hc h => ?_, rfl⟩⟩
      exact hleft c hc ((colOutside_iff hrow (hc.trans hcol)).2 h)

theorem FirstFault.faultCause (h : FirstFault s x y n f) : FaultCause (.drw x y n) s := by
  obtain ⟨row, hrow, _, ⟨hmem, _⟩ | ⟨_, col, hleaves, _⟩⟩ := h
  · exact faultCause_drw.2 ⟨row, hrow, .inl hmem⟩
  · exact faultCause_drw.2 ⟨row, hrow, .inr ⟨col, hleaves⟩⟩

/-- A DRW that faults reports the fault of the first row that faults. -/
theorem execDrw_firstFault (h : execDrw x y n s = .fault f) : FirstFault s x y n f := by
  obtain ⟨hok, _⟩ | ⟨g, herror, hfirst⟩ := drawSprite_cases x y n s
  · simp [execDrw, hok] at h
  · simp only [execDrw, herror, raiseFault, Host.Outcome.fault.injEq] at h
    exact h ▸ hfirst

/-- DRW completes exactly when its fault condition does not hold, with the covered pixels painted and the collision in
VF. -/
theorem execDrw_eq_next_paint :
    execDrw x y n s = .next t ↔ ¬ FaultCause (.drw x y n) s ∧
      t = (s.setFb (paint (drawnPixels s x y n) ⟨s.fb, false⟩).fb).setReg 15
        (flagByte (paint (drawnPixels s x y n) ⟨s.fb, false⟩).hit) := by
  rw [execDrw_eq_next]
  obtain ⟨hok, hcause⟩ | ⟨g, herror, hfirst⟩ := drawSprite_cases x y n s
  · simp [hok, hcause]
  · simp [herror, hfirst.faultCause]

/-! ### The statements about DRW -/

/-- Settles O52: the rows before the first fault lie in memory and on the screen. -/
theorem drawReportsItsFirstFault : Obligations.DrawReportsItsFirstFault := by
  intro x y n s f h
  obtain ⟨row, hrow, hfirst, hfault⟩ := execDrw_firstFault h
  refine ⟨row, hrow, fun q hq => ?_, hfault⟩
  obtain ⟨hmem, hleaves⟩ := not_or.1 (hfirst q hq)
  exact ⟨Nat.le_of_not_lt hmem, not_exists.1 hleaves⟩

/-- Settles O53: a sprite without rows paints nothing and hits nothing. -/
theorem emptySpriteOnlyClearsVf : Obligations.EmptySpriteOnlyClearsVf := fun _ _ s =>
  ⟨s.setReg 15 0, rfl, State.reg_setReg_self s 15 0, setReg_sameExcept 15 0 s⟩

theorem flagByte_eq_one {b : Bool} : flagByte b = 1 ↔ b = true := by cases b <;> decide

theorem flagByte_eq_zero {b : Bool} : flagByte b = 0 ↔ b = false := by cases b <;> decide

/-- The collision flag after drawing is set exactly when a covered pixel was on before (R203). -/
theorem hit_paint_drawnPixels :
    (paint (drawnPixels s x y n) ⟨s.fb, false⟩).hit = true ↔
      ∃ p < 2048, Covers s x y n p ∧ pixelOn s.fb p = true := by
  obtain ⟨_, hhit⟩ := paint_nodup (drawnPixels s x y n) ⟨s.fb, false⟩ nodup_drawnPixels
    fun p hp => (mem_drawnPixels.1 hp).lt
  rw [hhit, Bool.false_or, List.any_eq_true]
  refine exists_congr fun p => ?_
  rw [mem_drawnPixels]
  exact ⟨fun ⟨hp, hon⟩ => ⟨hp.lt, hp, hon⟩, fun ⟨_, hp, hon⟩ => ⟨hp, hon⟩⟩

/-- Settles O51: the pixels drawn are the covered ones, each drawn once, so that each flips and the flag tells whether
one of them was on. The modes and the bit order are decisions of the spec (D16 to D18). -/
theorem drawFlipsCoveredPixelsAndDetectsCollision : Obligations.DrawFlipsCoveredPixelsAndDetectsCollision := by
  intro x y n s hcause
  obtain ⟨hpixel, _⟩ := paint_nodup (drawnPixels s x y n) ⟨s.fb, false⟩ nodup_drawnPixels
    fun p hp => (mem_drawnPixels.1 hp).lt
  refine ⟨_, execDrw_eq_next_paint.2 ⟨hcause, rfl⟩, fun p _ hp => ?_, fun p _ hp => ?_, fun hon => ?_,
    fun hoff => ?_, setFb_setReg_sameExcept 15 _ _ s⟩
  · simp [hpixel, mem_drawnPixels.2 hp]
  · simp [hpixel, mt mem_drawnPixels.1 hp]
  · rw [State.reg_setReg_self, flagByte_eq_one]
    exact hit_paint_drawnPixels.2 hon
  · rw [State.reg_setReg_self, flagByte_eq_zero, ← Bool.not_eq_true]
    exact mt hit_paint_drawnPixels.1 hoff

section
variable (h : SameExcept { regs := [15], fb := true } s t) (hx : x ≠ 15) (hy : y ≠ 15)
include h hx hy

/-- What DRW writes is no part of what its sprite covers, with VF as no origin. -/
theorem SameExcept.covers_iff : Covers t x y n p ↔ Covers s x y n p := by
  simp only [Covers, SpriteOn, spriteCol, spriteRow, h.i rfl, h.config, h.bytes _ List.not_mem_nil,
    h.regs x (by simpa using hx), h.regs y (by simpa using hy)]

/-- Nor is it part of DRW's fault condition. -/
theorem SameExcept.faultCause_drw_iff : FaultCause (.drw x y n) t ↔ FaultCause (.drw x y n) s := by
  simp only [FaultCause, LeavesScreen, SpriteOn, spriteCol, spriteRow, h.i rfl, h.config, h.bytes _ List.not_mem_nil,
    h.regs x (by simpa using hx), h.regs y (by simpa using hy)]

end

/-- Settles O54: the second draw covers the same pixels and flips them back, and a covered pixel is on before it exactly
when it was off before the first. -/
theorem drawingTwiceRestoresTheScreen : Obligations.DrawingTwiceRestoresTheScreen := by
  intro x y n s t hx hy h
  have hcause := (execDrw_eq_next_paint.1 h).1
  obtain ⟨t', ht', hflip, hstay, _, _, hframe⟩ := drawFlipsCoveredPixelsAndDetectsCollision x y n s hcause
  obtain rfl : t' = t := Host.Outcome.next.inj (ht'.symm.trans h)
  obtain ⟨u, hu, hflip', hstay', hon, hoff, _⟩ := drawFlipsCoveredPixelsAndDetectsCollision x y n t'
    ((hframe.faultCause_drw_iff hx hy).not.2 hcause)
  simp only [hframe.covers_iff hx hy] at hflip' hstay' hon hoff
  refine ⟨u, hu, framebuffer_ext fun p hp => ?_, ?_⟩
  · by_cases hcov : Covers s x y n p
    · rw [hflip' p hp hcov, hflip p hp hcov, Bool.not_not]
    · rw [hstay' p hp hcov, hstay p hp hcov]
  · have hbefore : (∃ p < 2048, Covers s x y n p ∧ pixelOn t'.fb p = true) ↔
        ∃ p < 2048, Covers s x y n p ∧ pixelOn s.fb p = false :=
      exists_congr fun p => and_congr_right fun hp => and_congr_right fun hcov => by
        rw [hflip p hp hcov, Bool.not_eq_true']
    rw [← hbefore]
    refine ⟨fun hone => by_contra fun hnone => ?_, hon⟩
    rw [hoff hnone] at hone
    exact absurd hone (by decide)

end Sys2Proof.Machine
end

section
/-! SUPPORT. When an execute step faults or is refused, and what a Cycle makes of a fault (60_exceptions.md R241, R242). -/

namespace Sys2Proof.Machine

variable {s : State}

/-! ### The outcomes of an execute step -/

/-- Settles O7: only CALL and RET are refused, and only with SP above 16, where each of them is (log entry 4). -/
theorem refusedOnlyAboveSixteen : Obligations.RefusedOnlyAboveSixteen := by
  refine fun i s => ⟨fun ⟨r, h⟩ => exec_eq_refused h, ?_⟩
  rintro ⟨hsp, rfl | ⟨nnn, rfl⟩⟩
  · exact ⟨_, execRet_eq_refused.2 ⟨hsp, rfl⟩⟩
  · exact ⟨_, execCall_eq_refused.2 ⟨hsp, rfl⟩⟩

/-- An outcome that is a certain fault exactly on a condition is some fault exactly on it. -/
theorem exists_fault_iff {o : Host.Outcome State Fault Refusal} {cond : Prop} {g : Fault}
    (h : ∀ f, o = .fault f ↔ cond ∧ f = g) : (∃ f, o = .fault f) ↔ cond := by
  simp only [h, exists_and_left, exists_eq, and_true]

/-- DRW faults exactly when a row or an on bit lies out of range (R55, R204). -/
theorem exists_execDrw_eq_fault {x y : Reg} {n : BitVec 4} :
    (∃ f, execDrw x y n s = .fault f) ↔ FaultCause (.drw x y n) s := by
  refine ⟨fun ⟨f, h⟩ => (execDrw_firstFault h).faultCause, fun hcause => ?_⟩
  obtain ⟨_, hnone⟩ | ⟨f, herror, _⟩ := drawSprite_cases x y n s
  · exact absurd hcause hnone
  · exact ⟨f, by rw [execDrw, herror]; rfl⟩

/-- Settles O8: each meaning that can fault does so exactly on its condition, which the spec decided (D10, D11, D15, D16);
every other meaning answers a next state. -/
theorem faultsExactlyOnTheListedConditions : Obligations.FaultsExactlyOnTheListedConditions := by
  intro i s _
  cases i with
  | ret => exact (exists_fault_iff fun _ => execRet_eq_fault).trans BitVec.toNat_inj.symm
  | call nnn => exact (exists_fault_iff fun _ => execCall_eq_fault).trans BitVec.toNat_inj.symm
  | skp x | sknp x => exact exists_fault_iff fun _ => skipOnKey_eq_fault
  | ldB x => exact (exists_fault_iff fun _ => execLdB_eq_fault).trans Nat.succ_lt_succ_iff
  | ldMemVx x => exact (exists_fault_iff fun _ => execLdMemVx_eq_fault).trans Nat.succ_lt_succ_iff
  | ldVxMem x => exact (exists_fault_iff fun _ => execLdVxMem_eq_fault).trans Nat.succ_lt_succ_iff
  | drw x y n => exact exists_execDrw_eq_fault
  | ldVxK x =>
    refine ⟨fun ⟨f, h⟩ => ?_, False.elim⟩
    simp only [exec, execLdVxK] at h
    split at h <;> cases h
  | _ => exact ⟨fun ⟨f, h⟩ => by (cases h), False.elim⟩

/-! ### The fault record -/

/-- Settles O25: a fault of the fetch or of the execute step is recorded on the state in which the Cycle began (D22). -/
theorem faultDiscardsTheCycleAndIsRecorded : Obligations.FaultDiscardsTheCycleAndIsRecorded := by
  refine fun s hnone => ⟨step_fetchOob hnone, fun op f hop h => ?_⟩
  rw [step_fetched hnone hop, show preIncrement s = { s with pc := s.pc + 2 } from rfl, h]
  rfl

/-- A step that answers a next state hands it to the rest of the run. -/
theorem coreRun_succ {M : Host.Core} {a b : M.State} (h : M.step a = .next b) (n : Nat) :
    M.run (n + 1) a = M.run n b := by
  rw [Host.Core.run, h]

/-- Settles O26, by induction on the number of Cycles: each leaves the faulted state as it is (D22). -/
theorem faultedMachineNeverChanges : Obligations.FaultedMachineNeverChanges := by
  intro s n hfault
  induction n with
  | zero => rfl
  | succ n ih => exact (coreRun_succ (M := core) (step_faulted hfault) n).trans ih

end Sys2Proof.Machine
end
